-- ==== Sys2Proof/Word.lean ====
section
/-! DEFINITION. The word types of the block. Every value is an unsigned number of a stated width
(00_scope.md section 6). -/

namespace Sys2Proof

/-- A byte: the host port's data width, and the width of an entry of CG, TB and PX
(00_scope.md rule R6, 10_state.md rules R12 to R14). -/
abbrev Byte := BitVec 8

/-- A local address: 10 bits, 0x000 to 0x3FF (20_memory.md rule R40). -/
abbrev LocalAddr := BitVec 10

/-- A byte address in the colour table: 9 bits, 0 to 511 (41_palette_decoder.md rule R128). -/
abbrev CgAddr := BitVec 9

/-- A colour: 15 bits (00_scope.md rule R3). -/
abbrev Color15 := BitVec 15

/-- A 4-bit command operand, bank index or colour index (30_encoding.md rule R70). -/
abbrev Nibble := BitVec 4

/-- A finite byte sequence, as the external compressor takes and returns
(43_compressor_contract.md rule R150). -/
abbrev Bytes := List Byte

end Sys2Proof
end

