-- ==== Sys2Proof/Syntax.lean ====
section
/-! DEFINITION. The commands of the set TBC-1: one constructor per row of spec/opcode_table.json
(30_encoding.md rule R74). -/

namespace Sys2Proof

/-- A command. An operand is the 4-bit `arg` field of its byte (30_encoding.md rules R71, R73); the
width carries the bound "An operand outside 0 to 15 cannot be written" (rule R78). -/
inductive Instr where
  /-- 0x00, no operation (42_control.md rule R141). -/
  | nop
  /-- 0x10, decode the packed tile (40_tile_codec.md rule R94). -/
  | tdec
  /-- 0x20, encode the pixel grid (40_tile_codec.md rule R98). -/
  | tenc
  /-- 0x30 + b, decode bank `b` (41_palette_decoder.md rule R116). -/
  | pdec (b : Nibble)
  /-- 0x40 + p, sprite bank for OAM palette `p` (41_palette_decoder.md rule R118). -/
  | sbnk (p : Nibble)
  /-- 0x50, decode the bank named by BANK (41_palette_decoder.md rule R117). -/
  | pdcb
  /-- 0x60 + n, look up colour `n` of bank BANK (41_palette_decoder.md rule R119). -/
  | clut (n : Nibble)
  /-- 0x70, COLOR to 8 bits per channel (41_palette_decoder.md rule R120). -/
  | trgb
  /-- 0x80, RGB to a 15-bit colour (41_palette_decoder.md rule R121). -/
  | frgb
  /-- 0xE0, clear error and flags (42_control.md rule R142). -/
  | clre
  /-- 0xF0, soft reset (42_control.md rule R143). -/
  | srst
  deriving DecidableEq, Repr

end Sys2Proof
end

