-- ==== Sys2Proof/WellFormed.lean ====
section
/-! DEFINITION. The operand check of a command, as the "legal" column of spec/opcode_table.json and
30_encoding.md rule R73 give it. -/

namespace Sys2Proof

/-- The operand is in the command's legal range (30_encoding.md rule R73). Only SBNK's range is
smaller than its field: 0 to 7. The eight terms `sbnk 8` to `sbnk 15` fail this check and are still
commands: they encode, decode and raise OpRange (30_encoding.md rule R76). -/
def Instr.wellFormed : Instr → Bool
  | .nop => true
  | .tdec => true
  | .tenc => true
  | .pdec _ => true
  | .sbnk p => decide (p.toNat ≤ 7)
  | .pdcb => true
  | .clut _ => true
  | .trgb => true
  | .frgb => true
  | .clre => true
  | .srst => true

end Sys2Proof
end

