-- ==== Sys2Proof/Decode.lean ====
section
/-! DEFINITION. Decoding a command byte and encoding a command (30_encoding.md rules R70 to R76). -/

namespace Sys2Proof

/-- Why a byte is no command: the two kinds of reserved encoding of 30_encoding.md rule R75. -/
inductive Reserved where
  /-- `op` is 0x9 to 0xD: no command has this opcode. -/
  | unassignedOpcode (op : Nibble)
  /-- `op` is a C0 opcode and `arg` is not 0 (rule R71). -/
  | operandNotZero (op arg : Nibble)
  deriving DecidableEq, Repr

/-- `op = w[7:4]` (30_encoding.md rule R70). -/
def opField (w : Byte) : Nibble := w.extractLsb' 4 4

/-- `arg = w[3:0]` (30_encoding.md rule R70). -/
def argField (w : Byte) : Nibble := w.extractLsb' 0 4

/-- A command byte from its two fields (30_encoding.md rule R70). -/
def commandByte (op arg : Nibble) : Byte := op ++ arg

/-- Format C0: `arg` must be 0 (30_encoding.md rule R71). -/
def formatC0 (op arg : Nibble) (i : Instr) : Except Reserved Instr :=
  if arg = 0 then .ok i else .error (.operandNotZero op arg)

/-- `decode(w)` of 30_encoding.md rule R74, by its two fields. Total: each of the 256 bytes is a
command or one of the reserved encodings of rule R75. -/
def decodeFields (op arg : Nibble) : Except Reserved Instr :=
  match op.toNat with
  | 0x0 => formatC0 op arg .nop
  | 0x1 => formatC0 op arg .tdec
  | 0x2 => formatC0 op arg .tenc
  | 0x3 => .ok (.pdec arg)
  | 0x4 => .ok (.sbnk arg)
  | 0x5 => formatC0 op arg .pdcb
  | 0x6 => .ok (.clut arg)
  | 0x7 => formatC0 op arg .trgb
  | 0x8 => formatC0 op arg .frgb
  | 0xE => formatC0 op arg .clre
  | 0xF => formatC0 op arg .srst
  | _ => .error (.unassignedOpcode op)

/-- `decode(w)` (30_encoding.md rules R72, R74). -/
def decode (w : Byte) : Except Reserved Instr := decodeFields (opField w) (argField w)

/-- The command byte of a command, from the opcode map of 30_encoding.md rule R74. -/
def encode : Instr → Byte
  | .nop => commandByte 0x0 0
  | .tdec => commandByte 0x1 0
  | .tenc => commandByte 0x2 0
  | .pdec b => commandByte 0x3 b
  | .sbnk p => commandByte 0x4 p
  | .pdcb => commandByte 0x5 0
  | .clut n => commandByte 0x6 n
  | .trgb => commandByte 0x7 0
  | .frgb => commandByte 0x8 0
  | .clre => commandByte 0xE 0
  | .srst => commandByte 0xF 0

/-- The low `nbits` bits of `w` as a command byte, where they fit one; a command is exactly one byte
(30_encoding.md rule R70). -/
def tableByte (nbits w : Nat) : Option Byte :=
  if w % 2 ^ nbits < 256 then some (BitVec.ofNat 8 (w % 2 ^ nbits)) else none

/-- The command the decoder reads from the bits of an opcode-table row. -/
def decodeTableWord (nbits w : Nat) : Option Instr :=
  match tableByte nbits w with
  | none => none
  | some b =>
    match decode b with
    | .ok i => some i
    | .error _ => none

end Sys2Proof
end

