-- ==== Sys2Proof/Config.lean ====
section
/-! DEFINITION. What a build fixes and what the spec leaves free: the build parameter TILE_LAYOUT,
the platform parameter TBC_BASE, the unspecified reset contents of the memories, and the external
compressor. -/

namespace Sys2Proof

/-- The two values of the build parameter TILE_LAYOUT (00_scope.md rule R4). -/
inductive TileLayout where
  | interleaved
  | sequential
  deriving DecidableEq, Repr

namespace Config

/-- This hardware takes TILE_LAYOUT = INTERLEAVED (00_scope.md rule R4, decision D2).
UNVERIFIED (the spec takes it from general knowledge), unsafe for a claim about concrete tile bytes:
log entry 6. A statement that needs this
value names `Config.tileLayout`; the functions and their laws take the layout as an argument. -/
def tileLayout : TileLayout := .interleaved

/-- The unspecified content that a hardware reset leaves in the byte at a local address
(10_state.md rules R12 to R14, 70_reset_and_hazards.md rule R191). The first argument counts the
resets, since the bytes may differ after two resets (rule R204). A free value: it has no body, so
a claim holds whatever the bytes are. Safe: log entry 4. -/
opaque resetByte (resets : Nat) (localAddr : Nat) : Byte

/-- TBC_BASE: where the platform puts the 1 KiB window (20_memory.md rule R43, decision D12). OPEN
in the spec, so it has no body. Safe: log entry 13. -/
opaque tbcBase : Nat

/-- The external provider's `compress` (43_compressor_contract.md rules R150, R156): no body. Safe:
log entry 12. -/
opaque compress : Bytes → Bytes

/-- The external provider's `decompress` (43_compressor_contract.md rules R150, R153, R156): no body.
`none` where no bytes come out: it raises its error, or does not end, as it may on bytes that are not
an output of `compress`. Safe: log entry 12. -/
opaque decompress : Bytes → Option Bytes

end Config

end Sys2Proof
end

