-- ==== Sys2Proof/Machine/Operands.lean ====
section
/-! DEFINITION. The data functions of the block, on values: tile geometry and the tile codec's two
functions (00_scope.md rules R4, R5; 40_tile_codec.md rules R90 to R97), colour addresses and colour
fields (20_memory.md rules R50, R51; 41_palette_decoder.md rules R110 to R115). -/

namespace Sys2Proof.Machine

/-- The 32 bytes of a packed tile (10_state.md rule R12). -/
abbrev Tile := Fin 32 → Byte

/-- The 64 pixel indices of a pixel grid, row-major (40_tile_codec.md rule R90). -/
abbrev Grid := Fin 64 → Nibble

/-- The 64 entries of the pixel buffer, which may be out of range (10_state.md rule R13). -/
abbrev PixelBuffer := Fin 64 → Byte

/-- Where the bits of a tile lie: `off` places row `r` of bitplane `i` in a byte, `bitpos` places
column `c` in a bit (00_scope.md rules R4, R5). Both are bijections, so each comes with its inverse:
`plane` and `row` of a byte, `column` of a bit. The laws of the codec hold for every geometry
(40_tile_codec.md rule R99, 93_implementation_defined.md U4). -/
structure TileGeometry where
  /-- `off(i, r)`. -/
  off : Fin 4 → Fin 8 → Fin 32
  /-- The bitplane that byte `j` belongs to. -/
  plane : Fin 32 → Fin 4
  /-- The row that byte `j` holds. -/
  row : Fin 32 → Fin 8
  /-- `bitpos(c)`. -/
  bitpos : Fin 8 → Fin 8
  /-- The column that bit `b` holds. -/
  column : Fin 8 → Fin 8
  off_plane_row : ∀ j, off (plane j) (row j) = j
  plane_off : ∀ i r, plane (off i r) = i
  row_off : ∀ i r, row (off i r) = r
  bitpos_column : ∀ b, bitpos (column b) = b
  column_bitpos : ∀ c, column (bitpos c) = c

/-- INTERLEAVED: `off(i, r) = 16 * (i / 2) + 2 * r + (i mod 2)` (00_scope.md rule R4).
UNVERIFIED, the spec takes it from general knowledge: log entry 6. -/
def offInterleaved (i : Fin 4) (r : Fin 8) : Fin 32 :=
  ⟨16 * (i.val / 2) + 2 * r.val + i.val % 2, by omega⟩

/-- The bitplane of byte `j` under INTERLEAVED. -/
def planeInterleaved (j : Fin 32) : Fin 4 := ⟨2 * (j.val / 16) + j.val % 2, by omega⟩

/-- The row of byte `j` under INTERLEAVED. -/
def rowInterleaved (j : Fin 32) : Fin 8 := ⟨j.val % 16 / 2, by omega⟩

/-- SEQUENTIAL: `off(i, r) = 8 * i + r` (00_scope.md rule R4). -/
def offSequential (i : Fin 4) (r : Fin 8) : Fin 32 := ⟨8 * i.val + r.val, by omega⟩

/-- The bitplane of byte `j` under SEQUENTIAL. -/
def planeSequential (j : Fin 32) : Fin 4 := ⟨j.val / 8, by omega⟩

/-- The row of byte `j` under SEQUENTIAL. -/
def rowSequential (j : Fin 32) : Fin 8 := ⟨j.val % 8, by omega⟩

/-- `bitpos(c) = 7 - c`: the most significant bit is the leftmost pixel (00_scope.md rule R5). Its
own inverse. UNVERIFIED, the spec takes it from general knowledge: log entry 7. -/
def bitpos (c : Fin 8) : Fin 8 := ⟨7 - c.val, by omega⟩

/-- The geometry of a value of TILE_LAYOUT (00_scope.md rules R4, R5). -/
def tileGeometry : TileLayout → TileGeometry
  | .interleaved =>
    { off := offInterleaved, plane := planeInterleaved, row := rowInterleaved
      bitpos := bitpos, column := bitpos
      off_plane_row := by decide, plane_off := by decide, row_off := by decide
      bitpos_column := by decide, column_bitpos := by decide }
  | .sequential =>
    { off := offSequential, plane := planeSequential, row := rowSequential
      bitpos := bitpos, column := bitpos
      off_plane_row := by decide, plane_off := by decide, row_off := by decide
      bitpos_column := by decide, column_bitpos := by decide }

/-- The geometry of this hardware's build (00_scope.md rule R4). -/
def machineGeometry : TileGeometry := tileGeometry Config.tileLayout

/-- `k = 8*r + c` (00_scope.md section 6, 10_state.md rule R13). -/
def pixelIndex (r c : Fin 8) : Fin 64 := ⟨8 * r.val + c.val, by omega⟩

/-- The row of entry `k`, row 0 the top row (10_state.md rule R13). -/
def pixelRow (k : Fin 64) : Fin 8 := ⟨k.val / 8, by omega⟩

/-- The column of entry `k`, column 0 leftmost (10_state.md rule R13). -/
def pixelColumn (k : Fin 64) : Fin 8 := ⟨k.val % 8, by omega⟩

/-- `(t >> n) & 1` of a packed byte, as a pixel index (40_tile_codec.md rule R90). -/
def byteBit (t : Byte) (n : Fin 8) : Nibble := (t >>> n.val).setWidth 4 &&& 1

/-- `(g >> i) & 1` of a pixel index, as a byte (40_tile_codec.md rule R91). -/
def pixelBit (g : Nibble) (i : Fin 4) : Byte := (g >>> i.val).setWidth 8 &&& 1

/-- `decode_tile(t)` (40_tile_codec.md rule R90): bitplane `i` gives bit `i` of each pixel. -/
def decodeTile (geo : TileGeometry) (t : Tile) : Grid := fun k =>
  byteBit (t (geo.off 0 (pixelRow k))) (geo.bitpos (pixelColumn k))
    ||| byteBit (t (geo.off 1 (pixelRow k))) (geo.bitpos (pixelColumn k)) <<< 1
    ||| byteBit (t (geo.off 2 (pixelRow k))) (geo.bitpos (pixelColumn k)) <<< 2
    ||| byteBit (t (geo.off 3 (pixelRow k))) (geo.bitpos (pixelColumn k)) <<< 3

/-- Row `r` of bitplane `i` as a byte: the OR over the columns of 40_tile_codec.md rule R91. -/
def planeRowByte (geo : TileGeometry) (g : Grid) (i : Fin 4) (r : Fin 8) : Byte :=
  (List.finRange 8).foldl
    (fun acc c => acc ||| pixelBit (g (pixelIndex r c)) i <<< (geo.bitpos c).val) 0

/-- `encode_tile(g)` (40_tile_codec.md rule R91): byte `off(i, r)` is row `r` of bitplane `i`. -/
def encodeTile (geo : TileGeometry) (g : Grid) : Tile := fun j =>
  planeRowByte geo g (geo.plane j) (geo.row j)

/-- An entry of PX is out of range when it is above 15 (40_tile_codec.md rule R95). -/
def outOfRange (v : Byte) : Bool := decide (15 < v.toNat)

/-- `first_oor(PX)`: the least out-of-range entry, if any (40_tile_codec.md rule R95; scanned from
PX[0] up, 60_exceptions.md rule R167). -/
def firstOor (px : PixelBuffer) : Option (Fin 64) := (List.finRange 64).find? fun k => outOfRange (px k)

/-- `min(v, 15)` (40_tile_codec.md rules R97, R98). -/
def clampPixel (v : Byte) : Nibble := if outOfRange v then 15 else v.setWidth 4

/-- `caddr(b, n) = 32*b + 2*n`, 9 bits (20_memory.md rule R51, 41_palette_decoder.md rule R128). -/
def caddr (b n : Nibble) : CgAddr := 32 * b.setWidth 9 + 2 * n.setWidth 9

/-- A little-endian 16-bit word from its low and high byte (20_memory.md rules R48, R50). -/
def word16 (lo hi : Byte) : BitVec 16 := lo.setWidth 16 ||| hi.setWidth 16 <<< 8

/-- The colour in a colour-table word: bits 14:0, bit 15 dropped (20_memory.md rule R50). -/
def colorOfWord (w : BitVec 16) : Color15 := w.extractLsb' 0 15

/-- `red(col) = col[4:0]` (41_palette_decoder.md rule R111). The order of the channels is the
spec's reading of "low-to-high bit order", UNVERIFIED: log entry 8. -/
def red (col : Color15) : BitVec 5 := col.extractLsb' 0 5

/-- `green(col) = col[9:5]` (41_palette_decoder.md rule R111). -/
def green (col : Color15) : BitVec 5 := col.extractLsb' 5 5

/-- `blue(col) = col[14:10]` (41_palette_decoder.md rule R111). -/
def blue (col : Color15) : BitVec 5 := col.extractLsb' 10 5

/-- A channel times 8, 8 bits (41_palette_decoder.md rule R114). -/
def scaleChannel (ch : BitVec 5) : Byte := ch.setWidth 8 * 8

/-- A channel by truncation, `x >> 3`, 5 bits (41_palette_decoder.md rules R115, R128). -/
def truncateChannel (x : Byte) : BitVec 5 := (x >>> 3).setWidth 5

/-- `to_rgb8(col)` (41_palette_decoder.md rule R114). -/
def toRgb8 (col : Color15) : Byte × Byte × Byte :=
  (scaleChannel (red col), scaleChannel (green col), scaleChannel (blue col))

/-- `from_rgb8(r, g, b)` (41_palette_decoder.md rule R115). -/
def fromRgb8 (r g b : Byte) : Color15 :=
  (truncateChannel r).setWidth 15 ||| (truncateChannel g).setWidth 15 <<< 5
    ||| (truncateChannel b).setWidth 15 <<< 10

/-- `sprite_bank_for(p) = p + 8`, defined for `p` 0 to 7 only (41_palette_decoder.md rule R113). -/
def spriteBankFor (p : Nibble) : Option Nibble := if p.toNat ≤ 7 then some (p + 8) else none

end Sys2Proof.Machine
end

