-- ==== Sys2Proof/Machine/State.lean ====
section
/-! DEFINITION. The state of the block (10_state.md), the host agent's script beside it, the block's
errors, the ways a step can stop, and the state after reset. -/

namespace Sys2Proof.Machine

/-- A byte memory (CG, TB or PX): the bytes written since the last reset, as (index, byte) pairs
with rising indices. An unlisted index holds no written byte: see `Memory.read?` and log entry 4. -/
abbrev Memory := List Host.Cell

/-- One event of the host's script: the two transactions of 20_memory.md rules R41 and R42, and the
hardware reset of 70_reset_and_hazards.md rule R190. -/
inductive HostEvent where
  /-- `HostRead(addr)` (20_memory.md rule R41). -/
  | read (addr : LocalAddr)
  /-- `HostWrite(addr, v)` (20_memory.md rule R42). -/
  | write (addr : LocalAddr) (v : Byte)
  /-- A hardware reset, "the one event other than a host transaction that changes state"
  (70_reset_and_hazards.md rule R190). -/
  | hardwareReset
  deriving DecidableEq, Repr

/-- The three errors of the block (60_exceptions.md rule R160). They are architected outcomes with
defined state, not faults of the model (rule R179). -/
inductive CmdError where
  /-- TENC with an entry of PX above 15 under the reject policy. -/
  | pixRange
  /-- A reserved command byte. -/
  | illCmd
  /-- SBNK with an operand above 7. -/
  | opRange
  deriving DecidableEq, Repr

/-- Why the machine stops with a fault: never. "There is no behaviour in this spec whose treatment is
stuck" (93_implementation_defined.md part 1), "every state accepts a further transaction, so the block
is never stuck and never hangs" (70_reset_and_hazards.md rule R204), no address is unmapped
(20_memory.md rule R43), and the three errors of the block take a next state. So the type has no
constructor. Safe: nothing is hidden in a fault. -/
inductive Fault where
  deriving DecidableEq, Repr

/-- Why a step is refused. -/
inductive Refusal where
  /-- An arm of `exec` without a meaning would raise it; every arm has one, so nothing raises it.
  Safe. -/
  | notModelled (mnemonic : String)
  deriving DecidableEq, Repr

/-- The complete state of the block (10_state.md rule R10), and after it the fields of the model's
own: the host agent's script and what it has read (log entries 1 and 3), and the count of resets
that the free reset bytes are taken at (log entry 4). -/
structure State where
  /-- CG, 512 bytes, the colour-table memory (rule R14). -/
  cg : Memory
  /-- TB, 32 bytes, the packed-tile buffer (rule R12). -/
  tb : Memory
  /-- PX, 64 entries of 8 bits, the pixel buffer (rule R13). -/
  px : Memory
  /-- PAL, 16 entries of 15 bits, the palette output (rule R15). -/
  pal : Vector Color15 16
  /-- BANK, 4 bits (rule R16). -/
  bank : Nibble
  /-- COLOR, 15 bits (rule R17). -/
  color : Color15
  /-- RGB.R (rule R18). -/
  rgbR : Byte
  /-- RGB.G (rule R18). -/
  rgbG : Byte
  /-- RGB.B (rule R18). -/
  rgbB : Byte
  /-- CMD, the last executed command byte (rule R19). -/
  cmd : Byte
  /-- CTRL.CLAMP, the out-of-range policy of TENC (rule R20). -/
  clamp : Bool
  /-- CTRL.IE, the error interrupt enable (rule R20). -/
  ie : Bool
  /-- STATUS.ERR, the error lock (rule R21). -/
  err : Bool
  /-- STATUS.CLAMPED, sticky (rule R21). -/
  clamped : Bool
  /-- ERRCODE (rule R22). -/
  errCode : Byte
  /-- ERRIDX (rule R23). -/
  errIdx : Byte
  /-- ERRVAL (rule R24). -/
  errVal : Byte
  /-- Hardware resets since the first one (model's own field, log entry 4). -/
  resets : Nat
  /-- The host's events not yet performed, next first (model's own field, log entry 1). -/
  script : List HostEvent
  /-- The bytes `HostRead` has returned, oldest first (model's own field, log entry 3). -/
  reads : List Byte
  deriving DecidableEq, Repr

/-- The state just after a hardware reset (10_state.md rule R29). CG, TB and PX list no written byte:
their content is unspecified (log entry 4). The script is empty: the host has presented nothing yet
(log entry 1). -/
def State.reset : State where
  cg := []
  tb := []
  px := []
  pal := Vector.replicate 16 0
  bank := 0
  color := 0
  rgbR := 0
  rgbG := 0
  rgbB := 0
  cmd := 0
  clamp := false
  ie := false
  err := false
  clamped := false
  errCode := 0
  errIdx := 0
  errVal := 0
  resets := 0
  script := []
  reads := []

end Sys2Proof.Machine
end

