-- ==== Sys2Proof/Machine/Flags.lean ====
section
/-! DEFINITION. The block's two flags and its control bits (10_state.md rules R20, R21, R25): their
register bytes, the irq output, and the one command that sets CLAMPED. -/

namespace Sys2Proof.Machine

/-- STATUS as the host reads it: `000000 ++ CLAMPED ++ ERR` (20_memory.md rule R41). -/
def State.statusByte (s : State) : Byte :=
  (BitVec.ofBool s.clamped ++ BitVec.ofBool s.err).setWidth 8

/-- CTRL as the host reads it: `000000 ++ IE ++ CLAMP` (20_memory.md rule R41). -/
def State.ctrlByte (s : State) : Byte :=
  (BitVec.ofBool s.ie ++ BitVec.ofBool s.clamp).setWidth 8

/-- The irq output, `STATUS.ERR & CTRL.IE` (10_state.md rule R26, 60_exceptions.md rule R168). -/
def State.irq (s : State) : Bool := s.err && s.ie

/-- CLAMPED after a TENC that completes: set when an entry was out of range, otherwise kept
(40_tile_codec.md rule R97, "sticky"). -/
def clampedAfter (oor : Option (Fin 64)) (clamped : Bool) : Bool := clamped || oor.isSome

end Sys2Proof.Machine
end

