-- ==== Sys2Proof/Machine/Ops.lean ====
section
/-! DEFINITION. The named operations that the commands and the host port share: byte memories, the
reads of the block's data, completing a command, error entry, the return from an error, soft and
hardware reset. -/

namespace Sys2Proof.Machine

/-- The canonical form of a memory: indices strictly rising. -/
abbrev Memory.wf (m : Memory) : Prop := m.Pairwise fun a b => a.1 < b.1

/-- Every listed index is below `n`, the memory's size. -/
abbrev Memory.below (n : Nat) (m : Memory) : Prop := ∀ c ∈ m, c.1 < n

/-- The byte written at an index since the last reset; none where nothing was written. This is what
an unlisted index reads as in the list itself; what the machine then answers is the unspecified
reset content (`State.cgByte`, `State.tbByte`, `State.pxByte`). -/
def Memory.read? : Memory → Nat → Option Byte
  | [], _ => none
  | (b, v) :: m, a => if a = b then some v else Memory.read? m a

/-- Write one byte, keeping the canonical form. -/
def Memory.write : Memory → Nat → Byte → Memory
  | [], a, v => [(a, v)]
  | (b, u) :: m, a, v =>
    if a < b then (a, v) :: (b, u) :: m
    else if a = b then (a, v) :: m
    else (b, u) :: Memory.write m a v

/-- A memory of `n` entries all written at once (TDEC writes all 64 entries of PX, TENC all 32 bytes
of TB: 10_state.md rules R12, R13). -/
def Memory.table {n : Nat} (f : Fin n → Byte) : Memory := List.ofFn fun k => (k.val, f k)

/-- `CG[a]`; where nothing was written since the reset, the unspecified reset content
(10_state.md rule R14). -/
def State.cgByte (s : State) (a : CgAddr) : Byte :=
  (s.cg.read? a.toNat).getD (Config.resetByte s.resets a.toNat)

/-- `TB[j]`; where nothing was written since the reset, the unspecified reset content of local
address 0x200 + j (10_state.md rule R12). -/
def State.tbByte (s : State) (j : Fin 32) : Byte :=
  (s.tb.read? j.val).getD (Config.resetByte s.resets (0x200 + j.val))

/-- `PX[k]`; where nothing was written since the reset, the unspecified reset content of local
address 0x240 + k (10_state.md rule R13). -/
def State.pxByte (s : State) (k : Fin 64) : Byte :=
  (s.px.read? k.val).getD (Config.resetByte s.resets (0x240 + k.val))

/-- `CG16(a) = CG[a] | (CG[a+1] << 8)` (20_memory.md rule R50). -/
def State.cg16 (s : State) (a : CgAddr) : BitVec 16 := word16 (s.cgByte a) (s.cgByte (a + 1))

/-- `color15(b, n)` (41_palette_decoder.md rule R110). -/
def State.color15 (s : State) (b n : Nibble) : Color15 := colorOfWord (s.cg16 (caddr b n))

/-- `decode_bank(b)` (41_palette_decoder.md rule R112). -/
def State.decodeBank (s : State) (b : Nibble) : Vector Color15 16 :=
  Vector.ofFn fun k => s.color15 b (BitVec.ofFin k)

/-- A command completes: CMD takes its byte, beside the command's own writes, which `s` already has
(30_encoding.md rule R72, 10_state.md rule R19; log entry 11). -/
def completes (i : Instr) (s : State) : Host.Outcome State Fault Refusal :=
  .next { s with cmd := encode i }

/-- ERRCODE of an error (60_exceptions.md rule R160). -/
def CmdError.code : CmdError → Byte
  | .pixRange => 0x01
  | .illCmd => 0x02
  | .opRange => 0x03

/-- Error entry: `raise E(idx, val)` inside command byte `w` writes exactly CMD, STATUS.ERR, ERRCODE,
ERRIDX and ERRVAL. Nothing is saved and control goes nowhere (60_exceptions.md rule R164). -/
def raiseError (w : Byte) (e : CmdError) (idx val : Byte) (s : State) : State :=
  { s with cmd := w, err := true, errCode := e.code, errIdx := idx, errVal := val }

/-- The return from an error: CLRE's writes (42_control.md rule R142, 60_exceptions.md rule R170). -/
def clearErrors (s : State) : State :=
  { s with err := false, clamped := false, errCode := 0, errIdx := 0, errVal := 0 }

/-- SRST's writes: every register and PAL at its reset value, CG, TB and PX kept (42_control.md rule
R143). The model's own fields are kept: a command is no event of the host's. -/
def softReset (s : State) : State :=
  { State.reset with
    cg := s.cg, tb := s.tb, px := s.px, resets := s.resets, script := s.script, reads := s.reads }

/-- A hardware reset: every register and PAL at its reset value, CG, TB and PX unspecified anew
(70_reset_and_hazards.md rules R190, R204; log entries 4 and 5). The host keeps its script and what
it has read. -/
def hardwareReset (s : State) : State :=
  { State.reset with resets := s.resets + 1, script := s.script, reads := s.reads }

end Sys2Proof.Machine
end

