-- ==== Sys2Proof/Machine/Control.lean ====
section
/-! DEFINITION. The control commands NOP, CLRE and SRST (42_control.md). -/

namespace Sys2Proof.Machine

/-- NOP (42_control.md rule R141): "The only state change is CMD <- 0x00". -/
def execNop (s : State) : Host.Outcome State Fault Refusal := completes .nop s

/-- CLRE (42_control.md rule R142). -/
def execClre (s : State) : Host.Outcome State Fault Refusal := completes .clre (clearErrors s)

/-- SRST (42_control.md rule R143): CMD ends at 0x00, not at 0xF0. -/
def execSrst (s : State) : Host.Outcome State Fault Refusal := .next (softReset s)

end Sys2Proof.Machine
end

