-- ==== Sys2Proof/Machine/PaletteDecoder.lean ====
section
/-! DEFINITION. The palette table decoder commands PDEC, PDCB, SBNK, CLUT, TRGB and FRGB
(41_palette_decoder.md). -/

namespace Sys2Proof.Machine

/-- PDEC b (41_palette_decoder.md rule R116). -/
def execPdec (b : Nibble) (s : State) : Host.Outcome State Fault Refusal :=
  completes (.pdec b) { s with bank := b, pal := s.decodeBank b }

/-- PDCB (41_palette_decoder.md rule R117). -/
def execPdcb (s : State) : Host.Outcome State Fault Refusal :=
  completes .pdcb { s with pal := s.decodeBank s.bank }

/-- SBNK p (41_palette_decoder.md rule R118): an operand above 7 raises OpRange with BANK unchanged. -/
def execSbnk (p : Nibble) (s : State) : Host.Outcome State Fault Refusal :=
  match spriteBankFor p with
  | some b => completes (.sbnk p) { s with bank := b }
  | none => .next (raiseError (encode (.sbnk p)) .opRange 0 (p.setWidth 8) s)

/-- CLUT n (41_palette_decoder.md rule R119): reads CG as it is now, not PAL. -/
def execClut (n : Nibble) (s : State) : Host.Outcome State Fault Refusal :=
  completes (.clut n) { s with color := s.color15 s.bank n }

/-- TRGB (41_palette_decoder.md rule R120). -/
def execTrgb (s : State) : Host.Outcome State Fault Refusal :=
  completes .trgb
    { s with rgbR := (toRgb8 s.color).1, rgbG := (toRgb8 s.color).2.1, rgbB := (toRgb8 s.color).2.2 }

/-- FRGB (41_palette_decoder.md rule R121). -/
def execFrgb (s : State) : Host.Outcome State Fault Refusal :=
  completes .frgb { s with color := fromRgb8 s.rgbR s.rgbG s.rgbB }

end Sys2Proof.Machine
end

