-- ==== Sys2Proof/Machine/TileCodec.lean ====
section
/-! DEFINITION. The tile codec commands TDEC and TENC (40_tile_codec.md). -/

namespace Sys2Proof.Machine

/-- TDEC (40_tile_codec.md rule R94): `PX[k] <- zext_8(decode_tile(TB)[k])`, all 64 entries. -/
def execTdec (s : State) : Host.Outcome State Fault Refusal :=
  completes .tdec
    { s with px := Memory.table fun k => (decodeTile machineGeometry s.tbByte k).setWidth 8 }

/-- TENC (40_tile_codec.md rules R96 to R98): under the reject policy an out-of-range entry raises
PixRange and nothing else is written; otherwise all 32 bytes of TB take the encoding of
`min(PX[k], 15)`, and CLAMPED is set if an entry was out of range. -/
def execTenc (s : State) : Host.Outcome State Fault Refusal :=
  match firstOor s.pxByte, s.clamp with
  | some k, false =>
    .next (raiseError (encode .tenc) .pixRange (BitVec.ofNat 8 k.val) (s.pxByte k) s)
  | oor, _ =>
    completes .tenc
      { s with
        tb := Memory.table (encodeTile machineGeometry fun k => clampPixel (s.pxByte k))
        clamped := clampedAfter oor s.clamped }

end Sys2Proof.Machine
end

