-- ==== Sys2Proof/Machine/Dispatch.lean ====
section
/-! DEFINITION. The dispatch of a decoded command to its meaning (30_encoding.md rule R74). The error
lock is checked before it, by `issue` (rule R72). -/

namespace Sys2Proof.Machine

def exec (i : Instr) (s : State) : Host.Outcome State Fault Refusal :=
  match i with
  | .nop => Sys2Proof.Machine.execNop s
  | .tdec => Sys2Proof.Machine.execTdec s
  | .tenc => Sys2Proof.Machine.execTenc s
  | .pdec b => Sys2Proof.Machine.execPdec b s
  | .sbnk p => Sys2Proof.Machine.execSbnk p s
  | .pdcb => Sys2Proof.Machine.execPdcb s
  | .clut n => Sys2Proof.Machine.execClut n s
  | .trgb => Sys2Proof.Machine.execTrgb s
  | .frgb => Sys2Proof.Machine.execFrgb s
  | .clre => Sys2Proof.Machine.execClre s
  | .srst => Sys2Proof.Machine.execSrst s

end Sys2Proof.Machine
end

