-- ==== Sys2Proof/Machine/HostPort.lean ====
section
/-! DEFINITION. The host port: the address map (20_memory.md rule R43), host reads (R41), host writes
(R42), and the issue of a command by a write to CMD (30_encoding.md rule R72). -/

namespace Sys2Proof.Machine

/-- What a local address names (20_memory.md rule R43). -/
inductive Location where
  | cg (a : CgAddr)
  | tb (j : Fin 32)
  | palLo (k : Fin 16)
  | palHi (k : Fin 16)
  | px (k : Fin 64)
  | cmd
  | ctrl
  | status
  | errCode
  | errIdx
  | errVal
  | bank
  | colorLo
  | colorHi
  | rgbR
  | rgbG
  | rgbB
  /-- 0x287 and 0x28D to 0x3FF (20_memory.md rule R44). -/
  | reserved
  deriving DecidableEq, Repr

/-- The registers at 0x280 to 0x28C; every other address from 0x280 up is reserved
(20_memory.md rule R43). -/
def registerAt (n : Nat) : Location :=
  match n with
  | 0x280 => .cmd
  | 0x281 => .ctrl
  | 0x282 => .status
  | 0x283 => .errCode
  | 0x284 => .errIdx
  | 0x285 => .errVal
  | 0x286 => .bank
  | 0x288 => .colorLo
  | 0x289 => .colorHi
  | 0x28A => .rgbR
  | 0x28B => .rgbG
  | 0x28C => .rgbB
  | _ => .reserved

/-- The local address map (20_memory.md rule R43). -/
def locate (a : LocalAddr) : Location :=
  if a.toNat < 0x200 then .cg (a.setWidth 9)
  else if h : a.toNat < 0x220 then .tb ⟨a.toNat - 0x200, by omega⟩
  else if h : a.toNat < 0x240 then
    if a.toNat % 2 = 0 then .palLo ⟨(a.toNat - 0x220) / 2, by omega⟩
    else .palHi ⟨(a.toNat - 0x220) / 2, by omega⟩
  else if h : a.toNat < 0x280 then .px ⟨a.toNat - 0x240, by omega⟩
  else registerAt a.toNat

/-- Bits 7:0 of a colour (10_state.md rules R15, R17). -/
def colorLoByte (c : Color15) : Byte := c.extractLsb' 0 8

/-- `0 ++ c[14:8]`: bit 7 of the high byte reads 0 (10_state.md rules R15, R17). -/
def colorHiByte (c : Color15) : Byte := (c.extractLsb' 8 7).setWidth 8

/-- A write to COLOR_LO: bits 7:0 replaced, the other half unchanged (10_state.md rule R17). -/
def setColorLo (c : Color15) (v : Byte) : Color15 := c.extractLsb' 8 7 ++ v

/-- A write to COLOR_HI: bits 6:0 of the byte into bits 14:8, bit 7 ignored (10_state.md rule R17). -/
def setColorHi (c : Color15) (v : Byte) : Color15 := v.extractLsb' 0 7 ++ c.extractLsb' 0 8

/-- The byte a location reads as (20_memory.md rule R41). -/
def readLocation (s : State) : Location → Byte
  | .cg a => s.cgByte a
  | .tb j => s.tbByte j
  | .palLo k => colorLoByte s.pal[k]
  | .palHi k => colorHiByte s.pal[k]
  | .px k => s.pxByte k
  | .cmd => s.cmd
  | .ctrl => s.ctrlByte
  | .status => s.statusByte
  | .errCode => s.errCode
  | .errIdx => s.errIdx
  | .errVal => s.errVal
  | .bank => s.bank.setWidth 8
  | .colorLo => colorLoByte s.color
  | .colorHi => colorHiByte s.color
  | .rgbR => s.rgbR
  | .rgbG => s.rgbG
  | .rgbB => s.rgbB
  | .reserved => 0

/-- `HostRead(addr)`: a byte, and no change of the block (20_memory.md rules R41, R45). -/
def hostRead (s : State) (a : LocalAddr) : Byte := readLocation s (locate a)

/-- A host write to any location but CMD (20_memory.md rules R42, R44). Read-only and reserved
locations ignore it. -/
def writeLocation (s : State) (v : Byte) : Location → State
  | .cg a => { s with cg := s.cg.write a.toNat v }
  | .tb j => { s with tb := s.tb.write j.val v }
  | .palLo _ => s
  | .palHi _ => s
  | .px k => { s with px := s.px.write k.val v }
  | .cmd => s
  | .ctrl => { s with clamp := v.getLsbD 0, ie := v.getLsbD 1 }
  | .status => s
  | .errCode => s
  | .errIdx => s
  | .errVal => s
  | .bank => { s with bank := v.extractLsb' 0 4 }
  | .colorLo => { s with color := setColorLo s.color v }
  | .colorHi => { s with color := setColorHi s.color v }
  | .rgbR => { s with rgbR := v }
  | .rgbG => { s with rgbG := v }
  | .rgbB => { s with rgbB := v }
  | .reserved => s

/-- `issue(w)` (30_encoding.md rule R72): under the error lock only 0xE0 and 0xF0 are executed and
any other byte changes nothing (60_exceptions.md rule R166); outside it a reserved byte raises IllCmd
(rule R163) and a command is executed. -/
def issue (w : Byte) (s : State) : Host.Outcome State Fault Refusal :=
  if s.err then
    if w = 0xE0 then exec .clre s
    else if w = 0xF0 then exec .srst s
    else .next s
  else
    match decode w with
    | .error _ => .next (raiseError w .illCmd 0 w s)
    | .ok i => exec i s

/-- `HostWrite(addr, v)` (20_memory.md rule R42): a write to CMD issues a command. -/
def hostWrite (a : LocalAddr) (v : Byte) (s : State) : Host.Outcome State Fault Refusal :=
  match locate a with
  | .cmd => issue v s
  | l => .next (writeLocation s v l)

/-- One event of the host (00_scope.md rule R8, 70_reset_and_hazards.md rule R190). The byte of a read
goes to the host's record (log entry 3). -/
def performEvent (e : HostEvent) (s : State) : Host.Outcome State Fault Refusal :=
  match e with
  | .read a => .next { s with reads := s.reads ++ [hostRead s a] }
  | .write a v => hostWrite a v s
  | .hardwareReset => .next (hardwareReset s)

/-- The local address of a platform address, where it lies in the block's 1 KiB window at TBC_BASE
(20_memory.md rule R43: "every address in this spec is relative to it"; log entry 13). -/
def platformAddr (base a : Nat) : Option LocalAddr :=
  if base ≤ a ∧ a < base + 0x400 then some (BitVec.ofNat 10 (a - base)) else none

/-- The local address of a platform address on this platform. -/
def localOf (a : Nat) : Option LocalAddr := platformAddr Config.tbcBase a

end Sys2Proof.Machine
end

