-- ==== Sys2Proof/Machine/Step.lean ====
section
/-! DEFINITION. One step of the machine: the next event of the host's script (00_scope.md rule R8). -/

namespace Sys2Proof.Machine

/-- One step. The block "takes a step only when the host presents a transaction" (00_scope.md rule
R7): the next event of the script is performed; where the script is at its end nothing happens and
the state stays the final state (70_reset_and_hazards.md rule R204; log entry 2). -/
def step (s : State) : Host.Outcome State Fault Refusal :=
  match s.script with
  | [] => .next s
  | e :: rest => performEvent e { s with script := rest }

/-- The state in which the host's next transaction writes the command byte of a table row to CMD
(local address 0x280). A command is never fetched from a memory (20_memory.md rule R59), so this
stands for the host presenting it (log entry 1). -/
def State.withFetchWord (s : State) (nbits w : Nat) : State :=
  { s with script := .write 0x280 (BitVec.ofNat 8 (w % 2 ^ nbits)) :: s.script }

end Sys2Proof.Machine
end

