-- ==== Sys2Proof/Machine/Compressor.lean ====
section
/-! DEFINITION. The contract of the external tile compressor (43_compressor_contract.md). The block
has no command, register or state for it; a claim about a tool chain names `RoundTrip` as its
hypothesis and holds for every provider (rule R156). -/

namespace Sys2Proof.Machine

/-- The errors of the source's taxonomy that belong to the host software and its compressor, never to
the block (60_exceptions.md rule R162). -/
inductive HostError where
  | malformedSnapshot
  | compressionRoundTrip
  | validation
  | injectionOffset
  deriving DecidableEq, Repr

/-- `decompress(compress(x)) = x` for every finite byte sequence (43_compressor_contract.md rule R151,
90_conflicts.md C8; log entry 12). The only property assumed of a provider: of bytes that are not an
output of `compress` it says nothing, so `decompress` may give any bytes for them or none
(rule R153, 93_implementation_defined.md U10). -/
def RoundTrip (compress : Bytes → Bytes) (decompress : Bytes → Option Bytes) : Prop :=
  ∀ x, decompress (compress x) = some x

/-- Bounded decompression (43_compressor_contract.md rule R153; log entry 12). The call returns bytes
within the expected size bound or raises `CompressionRoundTripError`: beyond the bound always, and at
every bound where the provider gives no bytes. It reads nothing but its input, being a function of it. -/
def decompressWithin (decompress : Bytes → Option Bytes) (bound : Nat) (x : Bytes) :
    Except HostError Bytes :=
  match decompress x with
  | some y => if y.length ≤ bound then .ok y else .error .compressionRoundTrip
  | none => .error .compressionRoundTrip

/-- A caller around an external process treats its timeout as `CompressionRoundTripError`
(43_compressor_contract.md rule R154). -/
def underTimeout (timedOut : Bool) (answer : Except HostError Bytes) : Except HostError Bytes :=
  if timedOut then .error .compressionRoundTrip else answer

/-- The host's size check before injection (43_compressor_contract.md rule R155). -/
def checkInjection (compressed : Bytes) (available : Nat) : Except HostError Unit :=
  if compressed.length ≤ available then .ok () else .error .injectionOffset

/-- The 32 bytes of TB as the host would hand them to the compressor
(43_compressor_contract.md rule R151: "32-byte packed tiles as TENC leaves them in TB"). -/
def State.tileBytes (s : State) : Bytes := List.ofFn s.tbByte

end Sys2Proof.Machine
end

