-- ==== Sys2Proof/Machine/Script.lean ====
section
/-! DEFINITION. The host-script notation (30_encoding.md rules R78, R79), and the host's loading of
snapshot data into the block (20_memory.md rules R61 to R63). -/

namespace Sys2Proof.Machine

/-- A line of a host script: a transaction, a command by its mnemonic (rule R78), or a
pseudo-instruction (rule R79). -/
inductive ScriptLine where
  | wr (a : LocalAddr) (v : Byte)
  | rd (a : LocalAddr)
  | command (i : Instr)
  | ldt (t : Vector Byte 32)
  | ldpx (v : Vector Byte 64)
  | ldcg (a : CgAddr) (bs : Bytes)
  | setc (v : BitVec 16)
  | setrgb (r g b : Byte)
  | setb (b : Byte)
  | spal (p : Nibble)
  | pixc (n : Nibble)
  deriving DecidableEq, Repr

/-- LDCG names at least one byte and stays inside CG, `a + m <= 0x1FF` (30_encoding.md rule R79).
Every other line is bounded by its types. -/
def ScriptLine.wellFormed : ScriptLine → Bool
  | .ldcg a bs => decide (0 < bs.length) && decide (a.toNat + bs.length ≤ 0x200)
  | _ => true

/-- Writes of a byte list at ascending addresses. -/
def writesFrom (a : Nat) : Bytes → List HostEvent
  | [] => []
  | b :: bs => .write (BitVec.ofNat 10 a) b :: writesFrom (a + 1) bs

/-- The write to CMD that issues a command (30_encoding.md rule R78). -/
def issueEvent (i : Instr) : HostEvent := .write 0x280 (encode i)

/-- The transactions a line stands for (30_encoding.md rules R78, R79). -/
def ScriptLine.expand : ScriptLine → List HostEvent
  | .wr a v => [.write a v]
  | .rd a => [.read a]
  | .command i => [issueEvent i]
  | .ldt t => writesFrom 0x200 t.toList
  | .ldpx v => writesFrom 0x240 v.toList
  | .ldcg a bs => writesFrom a.toNat bs
  | .setc v => [.write 0x288 (v.extractLsb' 0 8), .write 0x289 (v.extractLsb' 8 8)]
  | .setrgb r g b => [.write 0x28A r, .write 0x28B g, .write 0x28C b]
  | .setb b => [.write 0x286 b]
  | .spal p => [issueEvent (.sbnk p), issueEvent .pdcb]
  | .pixc n => [issueEvent (.clut n), issueEvent .trgb]

/-- A host script: its lines from top to bottom (30_encoding.md rule R78). -/
def expandScript (ls : List ScriptLine) : List HostEvent := ls.flatMap ScriptLine.expand

/-- The whole colour-table snapshot into CG, byte `i` at `CG[i]`; a snapshot of another length is the
host's `MalformedSnapshotError` "and is never loaded in part" (20_memory.md rule R63). -/
def loadColorTable (snapshot : Bytes) : Except HostError (List HostEvent) :=
  if snapshot.length = 512 then .ok (writesFrom 0x000 snapshot) else .error .malformedSnapshot

/-- Where tile `t` of the sprite region starts in the video-memory snapshot (20_memory.md rule R62). -/
def tileSnapshotOffset (t : Fin 512) : Nat := 0xC000 + 32 * t.val

/-- Tile `t` of a 64 KiB video-memory snapshot into TB (20_memory.md rule R62); a snapshot of another
length is the host's `MalformedSnapshotError` (70_reset_and_hazards.md rule R196). -/
def loadTile (vram : Bytes) (t : Fin 512) : Except HostError (List HostEvent) :=
  if vram.length = 0x10000 then .ok (writesFrom 0x200 ((vram.drop (tileSnapshotOffset t)).take 32))
  else .error .malformedSnapshot

/-- The 3-bit OAM palette of a sprite's attribute byte, bits 3:1, as SBNK's operand
(41_palette_decoder.md rule R123, 70_reset_and_hazards.md rule R196). -/
def oamPalette (attr : Byte) : Nibble := (attr.extractLsb' 1 3).setWidth 4

end Sys2Proof.Machine
end

