-- ==== Sys2Proof/Machine/Signals.lean ====
section
/-! DEFINITION. The signal-level binding of the transactions (20_memory.md rule R64), beside the
transaction-level step: no other rule depends on it (00_scope.md rule R8). Log entry 14. -/

namespace Sys2Proof.Machine

/-- The input pins in one cycle, `clk` apart (20_memory.md rule R64). -/
structure Pins where
  rst : Bool
  sel : Bool
  wr : Bool
  addr : LocalAddr
  wdata : Byte
  deriving DecidableEq, Repr

/-- A rising edge of `clk`: reset; or, selected and writing, the whole host write; or nothing
(20_memory.md rule R64). A transaction in a cycle with `rst = 1` is not performed
(70_reset_and_hazards.md rule R190). -/
def clockEdge (p : Pins) (s : State) : Host.Outcome State Fault Refusal :=
  if p.rst then .next (hardwareReset s)
  else if p.sel && p.wr then hostWrite p.addr p.wdata s
  else .next s

/-- The `rdata` output in a cycle: the byte read in the state held before the coming edge, or 0x00
where no read is presented (20_memory.md rule R64). -/
def rdata (p : Pins) (s : State) : Byte := if p.sel && !p.wr then hostRead s p.addr else 0

end Sys2Proof.Machine
end

