-- ==== Sys2Proof/Safety.lean ====
section
/-! DEFINITION. What claims call a good state and a successful run. -/

namespace Sys2Proof.Machine

/-- What the error registers record while STATUS.ERR is 1: one row of the table of 60_exceptions.md
rule R160 (10_state.md rules R19, R22 to R24). -/
def State.errorRecorded (s : State) : Prop :=
  (s.errCode = 0x01 ∧ s.cmd = 0x20 ∧ s.errIdx.toNat < 64 ∧ 16 ≤ s.errVal.toNat)
    ∨ (s.errCode = 0x02 ∧ s.errIdx = 0 ∧ s.errVal = s.cmd ∧ ∃ r, decode s.cmd = .error r)
    ∨ (s.errCode = 0x03 ∧ s.errIdx = 0 ∧ 8 ≤ s.errVal.toNat ∧ s.errVal.toNat ≤ 15
        ∧ s.cmd.toNat = 0x40 + s.errVal.toNat)

/-- What holds of every state after a hardware reset and any events of the host: the memories keep
their canonical form inside their sizes; with ERR = 0 the error registers are 0 and CMD holds a
command's byte; with ERR = 1 they hold a row of the error table. -/
structure State.Inv (s : State) : Prop where
  cg_wf : s.cg.wf
  cg_below : s.cg.below 512
  tb_wf : s.tb.wf
  tb_below : s.tb.below 32
  px_wf : s.px.wf
  px_below : s.px.below 64
  noError : s.err = false →
    s.errCode = 0 ∧ s.errIdx = 0 ∧ s.errVal = 0 ∧ ∃ i, decode s.cmd = .ok i
  error : s.err = true → s.errorRecorded

/-- A state was reached, and it has STATUS.ERR = 0 (60_exceptions.md rule R179). -/
def errorFree (o : Host.Outcome State Fault Refusal) : Prop := ∃ t, o = .next t ∧ t.err = false

/-- A run after its first `n` transactions: a hardware reset of a block in any state `s`, then the
host's transactions in order (70_reset_and_hazards.md rule R204). -/
def runState (s : State) (transactions : List HostEvent) (n : Nat) :
    Host.Outcome State Fault Refusal :=
  core.run n { hardwareReset s with script := transactions }

/-- A run succeeded when its final state has STATUS.ERR = 0 and so has every intermediate state that
the claim cares about, named by the number of transactions performed (70_reset_and_hazards.md rule
R204). An error acknowledged on the way is no success for a claim that cares about it. -/
structure RunSucceeded (s : State) (transactions : List HostEvent) (cares : Nat → Prop) : Prop where
  isRun : .hardwareReset ∉ transactions
  final : errorFree (runState s transactions transactions.length)
  intermediate : ∀ n < transactions.length, cares n → errorFree (runState s transactions n)

/-- The bits of a location that a host write stores, as the address map gives them (20_memory.md rules
R43, R44). CMD is not listed: a write to it is no store. -/
def writableMask (a : LocalAddr) : Byte :=
  if a.toNat < 0x220 then 0xFF
  else if a.toNat < 0x240 then 0x00
  else if a.toNat < 0x280 then 0xFF
  else if a = 0x281 then 0x03
  else if a = 0x286 then 0x0F
  else if a = 0x288 then 0xFF
  else if a = 0x289 then 0x7F
  else if a = 0x28A then 0xFF
  else if a = 0x28B then 0xFF
  else if a = 0x28C then 0xFF
  else 0x00

end Sys2Proof.Machine
end

