-- ==== Sys2Proof/Certificates/Slice0/Obligations.lean ====
section
/-! DEFINITION. The statements for the provers. Each docstring names the rule of spec/ it formalises,
or says that it is the model's choice and names the log entry. -/

open Sys2Proof Sys2Proof.Machine

/-! Encoding and decode. -/

/-- Every byte has one meaning and no bit of an encoding is dropped: a byte decodes to a command
exactly where it is that command's byte (30_encoding.md rules R70 to R74). -/
def Obligations.DecodeEncodeAgree : Prop :=
  ∀ (w : Byte) (i : Instr), decode w = .ok i ↔ encode i = w

/-- The reserved encodings, and their number (30_encoding.md rule R75). -/
def Obligations.ReservedEncodings : Prop :=
  (∀ w : Byte, (∃ r, decode w = .error r) ↔
    (0x90 ≤ w.toNat ∧ w.toNat ≤ 0xDF) ∨
    (w.toNat % 16 ≠ 0 ∧ w.toNat / 16 ∈ [0x0, 0x1, 0x2, 0x5, 0x7, 0x8, 0xE, 0xF])) ∧
  ((List.range 256).filter fun n => (decodeTableWord 8 n).isNone).length = 200

/-- A few bytes written out from the opcode map (30_encoding.md rule R74), with operands at the ends
of their range, and a reserved byte of each kind (rule R75). -/
def Obligations.DecodeWrittenBytes : Prop :=
  decode 0b00000000 = .ok .nop ∧ decode 0b00010000 = .ok .tdec ∧ decode 0b00111111 = .ok (.pdec 15) ∧
  decode 0b01001100 = .ok (.sbnk 12) ∧ decode 0b01100111 = .ok (.clut 7) ∧
  decode 0b11110000 = .ok .srst ∧
  decode 0b10010011 = .error (.unassignedOpcode 9) ∧ decode 0b11100001 = .error (.operandNotZero 14 1)

/-! Issue, the error lock, and one step. -/

/-- A step runs the decoded command: outside the error lock, when the host's next transaction writes
to CMD a byte that decodes to `i`, the step is `exec i` at the state with that transaction taken off
the script (30_encoding.md rule R72, 20_memory.md rule R42; the script is log entry 1). -/
def Obligations.StepRunsDecodedCommand : Prop :=
  ∀ (s : State) (rest : List HostEvent) (w : Byte) (i : Instr),
    s.script = .write 0x280 w :: rest → s.err = false → decode w = .ok i →
    step s = exec i { s with script := rest }

/-- A host write of `w` to CMD performs `issue(w)`, in every branch (30_encoding.md rule R72): under the error lock CLRE and SRST are
executed and any other byte changes nothing, outside it a command is executed and a reserved byte
raises IllCmd. -/
def Obligations.IssueFollowsLockAndDecode : Prop :=
  ∀ (w : Byte) (s : State),
    hostWrite 0x280 w s = issue w s ∧
    (s.err = true → w = 0xE0 → issue w s = exec .clre s) ∧
    (s.err = true → w = 0xF0 → issue w s = exec .srst s) ∧
    (s.err = true → w ≠ 0xE0 → w ≠ 0xF0 → issue w s = .next s) ∧
    (s.err = false → ∀ i, decode w = .ok i → issue w s = exec i s) ∧
    (s.err = false → (∃ r, decode w = .error r) →
      issue w s = .next { s with cmd := w, err := true, errCode := 0x02, errIdx := 0, errVal := w })

/-- The error lock in a step: while ERR is 1, a write to CMD of any byte but 0xE0 and 0xF0 leaves the
whole state of the block as it was (60_exceptions.md rule R166). -/
def Obligations.LockedCommandIgnored : Prop :=
  ∀ (s : State) (rest : List HostEvent) (w : Byte),
    s.script = .write 0x280 w :: rest → s.err = true → w ≠ 0xE0 → w ≠ 0xF0 →
    step s = .next { s with script := rest }

/-- Every state accepts every transaction, so a step never stops (70_reset_and_hazards.md rule R204). -/
def Obligations.StepNeverStops : Prop :=
  ∀ s : State, ∃ t, step s = .next t

/-! The tile codec. -/

/-- The two layouts are the formulas of 00_scope.md rule R4, each a bijection onto the 32 bytes. -/
def Obligations.TileLayoutFormulas : Prop :=
  (∀ (i : Fin 4) (r : Fin 8),
    ((tileGeometry .interleaved).off i r).val = 16 * (i.val / 2) + 2 * r.val + i.val % 2 ∧
    ((tileGeometry .sequential).off i r).val = 8 * i.val + r.val) ∧
  ∀ L : TileLayout, Function.Bijective fun p : Fin 4 × Fin 8 => (tileGeometry L).off p.1 p.2

/-- The codec's two functions are inverse to each other, for every geometry of the tile
(40_tile_codec.md rule R99, and rules R92, R93 as laws of the functions). -/
def Obligations.TileCodecInverse : Prop :=
  ∀ geo : TileGeometry,
    (∀ t : Tile, encodeTile geo (decodeTile geo t) = t) ∧
    (∀ g : Grid, decodeTile geo (encodeTile geo g) = g)

/-- Lanes (40_tile_codec.md rule R100): a pixel depends on its four bits only, a byte on its eight. -/
def Obligations.LanesAreIndependent : Prop :=
  ∀ (geo : TileGeometry) (r : Fin 8),
    (∀ (c : Fin 8) (t u : Tile),
      (∀ i : Fin 4, (t (geo.off i r)).getLsbD (geo.bitpos c) = (u (geo.off i r)).getLsbD (geo.bitpos c)) →
      decodeTile geo t (pixelIndex r c) = decodeTile geo u (pixelIndex r c)) ∧
    (∀ (i : Fin 4) (g h : Grid),
      (∀ c : Fin 8, (g (pixelIndex r c)).getLsbD i = (h (pixelIndex r c)).getLsbD i) →
      encodeTile geo g (geo.off i r) = encodeTile geo h (geo.off i r))

/-- TDEC in every state (40_tile_codec.md rules R90, R94), the bytes placed by `Config.tileLayout`: bit
`i` of pixel (r, c) is bit `7 - c` of byte `off(i, r)`, the upper four bits are 0, and beside PX only
CMD changes. -/
def Obligations.TdecDecodesTile : Prop :=
  decode 0x10 = .ok .tdec ∧ ∀ s : State, ∃ t, exec .tdec s = .next t ∧
    t = { s with cmd := 0x10, px := t.px } ∧
    ∀ r c : Fin 8,
      (t.pxByte (pixelIndex r c)).toNat ≤ 15 ∧
      ∀ i : Fin 4, (t.pxByte (pixelIndex r c)).getLsbD i =
        (s.tbByte ((tileGeometry Config.tileLayout).off i r)).getLsbD (7 - c.val)

/-- TENC where no entry is out of range or the clamp policy is on (40_tile_codec.md rules R91, R97,
R98), the bytes placed by `Config.tileLayout`: bit `7 - c` of byte `off(i, r)` is bit `i` of
`min(PX[8r + c], 15)`, CLAMPED is set exactly where an entry was out of range and is otherwise kept,
and beside TB and CLAMPED only CMD changes. -/
def Obligations.TencEncodesGrid : Prop :=
  decode 0x20 = .ok .tenc ∧ ∀ s : State, (s.clamp = true ∨ ∀ k, (s.pxByte k).toNat ≤ 15) →
    ∃ t, exec .tenc s = .next t ∧
      t = { s with cmd := 0x20, tb := t.tb, clamped := t.clamped } ∧
      (t.clamped = true ↔ s.clamped = true ∨ ∃ k, 15 < (s.pxByte k).toNat) ∧
      ∀ (i : Fin 4) (r c : Fin 8),
        (t.tbByte ((tileGeometry Config.tileLayout).off i r)).getLsbD (7 - c.val) =
          (min (s.pxByte (pixelIndex r c)).toNat 15).testBit i

/-- TENC under the reject policy with the least out-of-range entry at `k` (40_tile_codec.md rule R96):
PixRange, and nothing else is written. -/
def Obligations.TencRejectsLeastOutOfRange : Prop :=
  ∀ (s : State) (k : Fin 64), s.clamp = false → 15 < (s.pxByte k).toNat →
    (∀ j < k, (s.pxByte j).toNat ≤ 15) →
    exec .tenc s = .next
      { s with
        cmd := 0x20, err := true, errCode := 0x01, errIdx := BitVec.ofNat 8 k.val
        errVal := s.pxByte k }

/-- The round-trip law of the bytes (40_tile_codec.md rule R92): encoding the decoded tile gives the
tile, and from any state with ERR = 0, TDEC then TENC leaves TB as it was, raises nothing and does not
set CLAMPED. -/
def Obligations.TdecThenTencKeepsTile : Prop :=
  (∀ (L : TileLayout) (t : Tile), encodeTile (tileGeometry L) (decodeTile (tileGeometry L) t) = t) ∧
  ∀ s : State, s.err = false → ∃ t u, issue 0x10 s = .next t ∧ issue 0x20 t = .next u ∧
    (∀ j, u.tbByte j = s.tbByte j) ∧ u.err = false ∧ u.clamped = s.clamped

/-- The round-trip law of the grid (40_tile_codec.md rule R93): decoding the encoded grid gives the
grid, and from any state with ERR = 0 where TENC encodes, TENC then TDEC leaves `min(PX[k], 15)` in
every entry, so an in-range PX as it was. -/
def Obligations.TencThenTdecClampsPixels : Prop :=
  (∀ (L : TileLayout) (g : Grid), decodeTile (tileGeometry L) (encodeTile (tileGeometry L) g) = g) ∧
  ∀ s : State, s.err = false → (s.clamp = true ∨ ∀ k, (s.pxByte k).toNat ≤ 15) →
    ∃ t u, issue 0x20 s = .next t ∧ issue 0x10 t = .next u ∧
      ∀ k, (u.pxByte k).toNat = min (s.pxByte k).toNat 15

/-- With any provider that meets the round-trip law, a grid that TENC encoded comes back from its
compressed bytes: once they are decompressed into a TB, TDEC gives the grid
(43_compressor_contract.md rules R151, R156, 40_tile_codec.md rule R93). -/
def Obligations.CompressedTileComesBack : Prop :=
  ∀ (compress : Bytes → Bytes) (decompress : Bytes → Option Bytes), RoundTrip compress decompress →
  ∀ s : State, (∀ k, (s.pxByte k).toNat ≤ 15) →
    ∃ t, exec .tenc s = .next t ∧
      ∀ u : State, decompress (compress t.tileBytes) = some u.tileBytes →
        ∃ v, exec .tdec u = .next v ∧ ∀ k, v.pxByte k = s.pxByte k

/-- Bounded decompression (43_compressor_contract.md rule R153). Of an output of `compress` it returns
the original exactly where that is within the bound. Of any bytes at all, by any provider, it returns
no more bytes than the bound, or raises `CompressionRoundTripError` and no other error; a provider that
gives no bytes has it raised at every bound. -/
def Obligations.DecompressionIsBounded : Prop :=
  (∀ (compress : Bytes → Bytes) (decompress : Bytes → Option Bytes), RoundTrip compress decompress →
    ∀ (bound : Nat) (x : Bytes),
      (x.length ≤ bound → decompressWithin decompress bound (compress x) = .ok x) ∧
      (bound < x.length →
        decompressWithin decompress bound (compress x) = .error .compressionRoundTrip)) ∧
  ∀ (decompress : Bytes → Option Bytes) (bound : Nat) (x : Bytes),
    (decompress x = none → decompressWithin decompress bound x = .error .compressionRoundTrip) ∧
    ((∃ y, decompressWithin decompress bound x = .ok y ∧ decompress x = some y ∧ y.length ≤ bound) ∨
      decompressWithin decompress bound x = .error .compressionRoundTrip)

/-! The palette decoder. -/

/-- `caddr(b, n) = 32*b + 2*n` in its 9 bits, always even and at most 510, with the high byte one above
(20_memory.md rule R51), and in colour numbers 16*b + n. -/
def Obligations.ColorAddressFormula : Prop :=
  ∀ b n : Nibble, (caddr b n).toNat = 32 * b.toNat + 2 * n.toNat ∧ (caddr b n).toNat % 2 = 0 ∧
    (caddr b n).toNat ≤ 510 ∧ (caddr b n).toNat / 2 = 16 * b.toNat + n.toNat ∧
    (caddr b n + 1).toNat = 32 * b.toNat + 2 * n.toNat + 1

/-- PDEC b in every state (41_palette_decoder.md rules R110, R116): entry `k` is the little-endian word
at byte 32*b + 2*k of CG with bit 15 dropped; BANK is `b`; beside them only CMD changes. -/
def Obligations.PdecDecodesBank : Prop :=
  ∀ (b : Nibble) (s : State), decode (0x30 + b.setWidth 8) = .ok (.pdec b) ∧
    ∃ t, exec (.pdec b) s = .next t ∧
    t = { s with cmd := 0x30 + b.setWidth 8, bank := b, pal := t.pal } ∧
    ∀ k : Fin 16, t.pal[k].toNat =
      ((s.cgByte (BitVec.ofNat 9 (32 * b.toNat + 2 * k.val))).toNat
        + 256 * (s.cgByte (BitVec.ofNat 9 (32 * b.toNat + 2 * k.val + 1))).toNat) % 2 ^ 15

/-- PDCB in every state (41_palette_decoder.md rules R110, R117): as PDEC, at the bank in BANK, which
is kept. -/
def Obligations.PdcbDecodesNamedBank : Prop :=
  decode 0x50 = .ok .pdcb ∧ ∀ s : State, ∃ t, exec .pdcb s = .next t ∧
    t = { s with cmd := 0x50, pal := t.pal } ∧
    ∀ k : Fin 16, t.pal[k].toNat =
      ((s.cgByte (BitVec.ofNat 9 (32 * s.bank.toNat + 2 * k.val))).toNat
        + 256 * (s.cgByte (BitVec.ofNat 9 (32 * s.bank.toNat + 2 * k.val + 1))).toNat) % 2 ^ 15

/-- CLUT n in every state (41_palette_decoder.md rules R110, R119): COLOR is the word at byte
32*BANK + 2*n of CG with bit 15 dropped; beside it only CMD changes. -/
def Obligations.ClutFetchesColor : Prop :=
  ∀ (n : Nibble) (s : State), decode (0x60 + n.setWidth 8) = .ok (.clut n) ∧
    ∃ t, exec (.clut n) s = .next t ∧
    t = { s with cmd := 0x60 + n.setWidth 8, color := t.color } ∧
    t.color.toNat =
      ((s.cgByte (BitVec.ofNat 9 (32 * s.bank.toNat + 2 * n.toNat))).toNat
        + 256 * (s.cgByte (BitVec.ofNat 9 (32 * s.bank.toNat + 2 * n.toNat + 1))).toNat) % 2 ^ 15

/-- SBNK p: a legal operand gives bank p + 8, an operand above 7 raises OpRange with BANK kept; in each
case nothing else changes but CMD and, on the error, the error registers (41_palette_decoder.md rule
R118). -/
def Obligations.SbnkMapsPaletteToSpriteBank : Prop :=
  ∀ (p : Nibble) (s : State),
    decode (0x40 + p.setWidth 8) = .ok (.sbnk p) ∧
    (p.toNat ≤ 7 → exec (.sbnk p) s =
      .next { s with cmd := 0x40 + p.setWidth 8, bank := BitVec.ofNat 4 (p.toNat + 8) }) ∧
    (7 < p.toNat → exec (.sbnk p) s =
      .next
        { s with
          cmd := 0x40 + p.setWidth 8, err := true, errCode := 0x03, errIdx := 0
          errVal := p.setWidth 8 })

/-- TRGB in every state (41_palette_decoder.md rules R111, R114, R120): each 5-bit channel of COLOR
times 8; beside RGB only CMD changes. -/
def Obligations.TrgbScalesChannels : Prop :=
  decode 0x70 = .ok .trgb ∧ ∀ s : State, ∃ t, exec .trgb s = .next t ∧
    t = { s with cmd := 0x70, rgbR := t.rgbR, rgbG := t.rgbG, rgbB := t.rgbB } ∧
    t.rgbR.toNat = s.color.toNat % 32 * 8 ∧ t.rgbG.toNat = s.color.toNat / 32 % 32 * 8 ∧
    t.rgbB.toNat = s.color.toNat / 1024 * 8

/-- FRGB in every state (41_palette_decoder.md rules R115, R121): each of RGB divided by 8, packed;
beside COLOR only CMD changes. -/
def Obligations.FrgbTruncatesChannels : Prop :=
  decode 0x80 = .ok .frgb ∧ ∀ s : State, ∃ t, exec .frgb s = .next t ∧
    t = { s with cmd := 0x80, color := t.color } ∧
    t.color.toNat = s.rgbR.toNat / 8 + 32 * (s.rgbG.toNat / 8) + 1024 * (s.rgbB.toNat / 8)

/-- The conversion laws (41_palette_decoder.md rule R122): exact from 15 bits, and from 8 bits the low
three bits of each channel are cleared. -/
def Obligations.ColorConversionLaws : Prop :=
  (∀ col : Color15, fromRgb8 (toRgb8 col).1 (toRgb8 col).2.1 (toRgb8 col).2.2 = col) ∧
  (∀ r g b : Byte, toRgb8 (fromRgb8 r g b) = (r &&& 0xF8, g &&& 0xF8, b &&& 0xF8))

/-- The pseudo-instruction SPAL p, two steps (30_encoding.md rule R79): with `p` at most 7 PAL holds
the sprite palette at byte 256 + 32*p of CG; with a larger `p` the OpRange error stays and the PDCB is
ignored, so PAL and BANK are kept. -/
def Obligations.SpritePaletteScript : Prop :=
  ∀ (p : Nibble) (s : State) (rest : List HostEvent),
    s.script = (ScriptLine.spal p).expand ++ rest → s.err = false →
    ∃ t, core.run 2 s = .next t ∧ t.script = rest ∧
      (p.toNat ≤ 7 → t.err = false ∧ t.bank.toNat = p.toNat + 8 ∧
        ∀ k : Fin 16, t.pal[k].toNat =
          ((s.cgByte (BitVec.ofNat 9 (256 + 32 * p.toNat + 2 * k.val))).toNat
            + 256 * (s.cgByte (BitVec.ofNat 9 (256 + 32 * p.toNat + 2 * k.val + 1))).toNat) % 2 ^ 15) ∧
      (7 < p.toNat → t.err = true ∧ t.errCode = 0x03 ∧ t.errVal.toNat = p.toNat ∧ t.pal = s.pal ∧
        t.bank = s.bank)

/-- The palette number that the host takes from bits 3:1 of a sprite's attribute byte is always legal:
SBNK gives bank (attr / 2) mod 8 + 8 (41_palette_decoder.md rules R118, R123). -/
def Obligations.OamPaletteAlwaysLegal : Prop :=
  ∀ (attr : Byte) (s : State), ∃ t, exec (.sbnk (oamPalette attr)) s = .next t ∧
    t.err = s.err ∧ t.bank.toNat = attr.toNat / 2 % 8 + 8

/-! The control commands. -/

/-- NOP executed, from any state: only CMD changes. Issued under the error lock it is ignored: nothing
changes, the error included (42_control.md rule R141). -/
def Obligations.NopWritesCmdOnly : Prop :=
  decode 0x00 = .ok .nop ∧
  ∀ s : State, exec .nop s = .next { s with cmd := 0x00 } ∧
    (s.err = false → issue 0x00 s = exec .nop s) ∧ (s.err = true → issue 0x00 s = .next s)

/-- CLRE in every state, under the error lock and outside it: ERR, CLAMPED and the three error registers cleared, everything else but CMD
kept (42_control.md rule R142). -/
def Obligations.ClreClearsErrorState : Prop :=
  decode 0xE0 = .ok .clre ∧ ∀ s : State, issue 0xE0 s = exec .clre s ∧ exec .clre s = .next
    { s with cmd := 0xE0, err := false, clamped := false, errCode := 0, errIdx := 0, errVal := 0 }

/-- SRST in every state, under the error lock and outside it: every register and PAL at 0, CG, TB and PX kept (42_control.md rule R143). -/
def Obligations.SrstResetsRegistersOnly : Prop :=
  decode 0xF0 = .ok .srst ∧ ∀ s : State, issue 0xF0 s = exec .srst s ∧ exec .srst s = .next
    { s with
      cmd := 0x00, clamp := false, ie := false, err := false, clamped := false
      errCode := 0x00, errIdx := 0x00, errVal := 0x00, bank := 0, color := 0x0000
      rgbR := 0x00, rgbG := 0x00, rgbB := 0x00, pal := Vector.replicate 16 0x0000 }

/-! The host port. -/

/-- A host read gives the byte of the read table and changes nothing of the block
(20_memory.md rule R41). Where the byte goes is the model's choice: log entry 3. -/
def Obligations.HostReadTable : Prop :=
  (∀ (s : State) (a : LocalAddr) (rest : List HostEvent), s.script = .read a :: rest →
    step s = .next { s with script := rest, reads := s.reads ++ [hostRead s a] }) ∧
  ∀ s : State,
    (∀ i : Fin 512, hostRead s (BitVec.ofNat 10 i.val) = s.cgByte (BitVec.ofNat 9 i.val)) ∧
    (∀ j : Fin 32, hostRead s (BitVec.ofNat 10 (0x200 + j.val)) = s.tbByte j) ∧
    (∀ k : Fin 16,
      (hostRead s (BitVec.ofNat 10 (0x220 + 2 * k.val))).toNat = s.pal[k].toNat % 256 ∧
      (hostRead s (BitVec.ofNat 10 (0x221 + 2 * k.val))).toNat = s.pal[k].toNat / 256) ∧
    (∀ k : Fin 64, hostRead s (BitVec.ofNat 10 (0x240 + k.val)) = s.pxByte k) ∧
    hostRead s 0x280 = s.cmd ∧
    (hostRead s 0x281).toNat = 2 * s.ie.toNat + s.clamp.toNat ∧
    (hostRead s 0x282).toNat = 2 * s.clamped.toNat + s.err.toNat ∧
    hostRead s 0x283 = s.errCode ∧ hostRead s 0x284 = s.errIdx ∧ hostRead s 0x285 = s.errVal ∧
    (hostRead s 0x286).toNat = s.bank.toNat ∧ hostRead s 0x287 = 0x00 ∧
    (hostRead s 0x288).toNat = s.color.toNat % 256 ∧ (hostRead s 0x289).toNat = s.color.toNat / 256 ∧
    hostRead s 0x28A = s.rgbR ∧ hostRead s 0x28B = s.rgbG ∧ hostRead s 0x28C = s.rgbB ∧
    ∀ a : LocalAddr, 0x28D ≤ a.toNat → hostRead s a = 0x00

/-- A host write has the effect of the write table and no other (20_memory.md rule R42). The bytes of
CG, TB and PX are named by `Memory.write`; what a later read gives is `HostWriteThenRead`. -/
def Obligations.HostWriteTable : Prop :=
  ∀ (s : State) (v : Byte),
    (∀ i : Fin 512, hostWrite (BitVec.ofNat 10 i.val) v s = .next { s with cg := s.cg.write i.val v }) ∧
    (∀ j : Fin 32, hostWrite (BitVec.ofNat 10 (0x200 + j.val)) v s =
      .next { s with tb := s.tb.write j.val v }) ∧
    (∀ a : LocalAddr, 0x220 ≤ a.toNat → a.toNat ≤ 0x23F → hostWrite a v s = .next s) ∧
    (∀ k : Fin 64, hostWrite (BitVec.ofNat 10 (0x240 + k.val)) v s =
      .next { s with px := s.px.write k.val v }) ∧
    hostWrite 0x280 v s = issue v s ∧
    hostWrite 0x281 v s = .next { s with clamp := v.getLsbD 0, ie := v.getLsbD 1 } ∧
    (∀ a : LocalAddr, 0x282 ≤ a.toNat → a.toNat ≤ 0x285 → hostWrite a v s = .next s) ∧
    hostWrite 0x286 v s = .next { s with bank := BitVec.ofNat 4 (v.toNat % 16) } ∧
    hostWrite 0x287 v s = .next s ∧
    hostWrite 0x288 v s =
      .next { s with color := BitVec.ofNat 15 (s.color.toNat / 256 * 256 + v.toNat) } ∧
    hostWrite 0x289 v s =
      .next { s with color := BitVec.ofNat 15 (v.toNat % 128 * 256 + s.color.toNat % 256) } ∧
    hostWrite 0x28A v s = .next { s with rgbR := v } ∧
    hostWrite 0x28B v s = .next { s with rgbG := v } ∧
    hostWrite 0x28C v s = .next { s with rgbB := v } ∧
    ∀ a : LocalAddr, 0x28D ≤ a.toNat → hostWrite a v s = .next s

/-- Over the whole address space but CMD: a write then a read of the same location gives the written
byte in the location's writable bits and the earlier byte in the others, and every other location
reads as before (20_memory.md rules R42 to R44, R56). -/
def Obligations.HostWriteThenRead : Prop :=
  ∀ (s : State) (a : LocalAddr) (v : Byte), a ≠ 0x280 → ∃ t, hostWrite a v s = .next t ∧
    hostRead t a = (v &&& writableMask a) ||| (hostRead s a &&& ~~~ writableMask a) ∧
    ∀ b, b ≠ a → hostRead t b = hostRead s b

/-- A write repeated at once leaves the same state, a write to CMD too (20_memory.md rule R46). -/
def Obligations.RepeatedWriteIdempotent : Prop :=
  ∀ (a : LocalAddr) (v : Byte) (s : State),
    ∃ t, hostWrite a v s = .next t ∧ hostWrite a v t = .next t

/-- Loading a colour-table snapshot of 512 bytes puts byte `i` at CG[i] and changes nothing else, and a
snapshot of another length is not loaded, not even in part (20_memory.md rule R63). -/
def Obligations.ColorTableLoads : Prop :=
  (∀ snapshot : Bytes, snapshot.length ≠ 512 →
    loadColorTable snapshot = .error .malformedSnapshot) ∧
  ∀ (s : State) (snapshot : Bytes) (rest : List HostEvent), snapshot.length = 512 →
    ∃ events, loadColorTable snapshot = .ok events ∧
      ∃ t, core.run 512 { s with script := events ++ rest } = .next t ∧
        t = { s with cg := t.cg, script := rest } ∧
        ∀ i : Fin 512, some (t.cgByte (BitVec.ofNat 9 i.val)) = snapshot[i.val]?

/-- The irq output is the conjunction of the two bits the host reads in STATUS and CTRL
(60_exceptions.md rule R168). -/
def Obligations.IrqIsErrAndEnable : Prop :=
  ∀ s : State, s.irq = ((hostRead s 0x282).getLsbD 0 && (hostRead s 0x281).getLsbD 1)

/-- The signal-level binding performs the transactions (20_memory.md rule R64): an edge with `rst` is a
hardware reset, whatever transaction is presented; an edge with a selected write is the step of that
write; any other edge changes nothing; `rdata` is the byte that the step of the selected read returns,
and 0x00 where no read is selected. -/
def Obligations.SignalsPerformTransactions : Prop :=
  ∀ (p : Pins) (s : State) (rest : List HostEvent),
    (p.rst = true →
      clockEdge p { s with script := rest } = step { s with script := .hardwareReset :: rest }) ∧
    (p.rst = false → p.sel = true → p.wr = true →
      clockEdge p { s with script := rest } = step { s with script := .write p.addr p.wdata :: rest }) ∧
    (p.rst = false → (p.sel = false ∨ p.wr = false) → clockEdge p s = .next s) ∧
    (p.sel = true → p.wr = false →
      step { s with script := .read p.addr :: rest } =
        .next { s with script := rest, reads := s.reads ++ [rdata p s] }) ∧
    ((p.sel = false ∨ p.wr = true) → rdata p s = 0x00)

/-- A platform address is the block's exactly where it is TBC_BASE plus a local address
(20_memory.md rule R43, decision D12), for every base. -/
def Obligations.PlatformWindow : Prop :=
  ∀ (base a : Nat) (l : LocalAddr), platformAddr base a = some l ↔ a = base + l.toNat

/-! Reset, errors and the whole machine. -/

/-- A hardware reset, from any state: every register and PAL at the values of 10_state.md rule R29 and
the irq output 0. The bytes of CG, TB and PX are the free bytes of that reset, the model's form of
"unspecified" (log entry 4). -/
def Obligations.HardwareResetState : Prop :=
  ∀ (s : State) (rest : List HostEvent), s.script = .hardwareReset :: rest →
    ∃ t, step s = .next t ∧ t.script = rest ∧
      t.cmd = 0x00 ∧ t.clamp = false ∧ t.ie = false ∧ t.err = false ∧ t.clamped = false ∧
      t.errCode = 0x00 ∧ t.errIdx = 0x00 ∧ t.errVal = 0x00 ∧ t.bank = 0 ∧ t.color = 0x0000 ∧
      t.rgbR = 0x00 ∧ t.rgbG = 0x00 ∧ t.rgbB = 0x00 ∧ (∀ k : Fin 16, t.pal[k] = 0x0000) ∧
      t.irq = false ∧
      (∀ a, t.cgByte a = Config.resetByte (s.resets + 1) a.toNat) ∧
      (∀ j, t.tbByte j = Config.resetByte (s.resets + 1) (0x200 + j.val)) ∧
      (∀ k, t.pxByte k = Config.resetByte (s.resets + 1) (0x240 + k.val))

/-- The state after reset has every register at the value of 10_state.md rule R29. -/
def Obligations.ResetRegisterValues : Prop :=
  State.reset.cmd = 0x00 ∧ State.reset.ctrlByte = 0x00 ∧ State.reset.statusByte = 0x00 ∧
  State.reset.errCode = 0x00 ∧ State.reset.errIdx = 0x00 ∧ State.reset.errVal = 0x00 ∧
  State.reset.bank = 0 ∧ State.reset.color = 0x0000 ∧ State.reset.rgbR = 0x00 ∧
  State.reset.rgbG = 0x00 ∧ State.reset.rgbB = 0x00 ∧ (∀ k : Fin 16, State.reset.pal[k] = 0x0000) ∧
  State.reset.irq = false

/-- The invariant holds after reset. -/
def Obligations.InvariantHoldsAtReset : Prop := State.reset.Inv

/-- Every step from every state that meets the invariant meets it again: the memories keep their
canonical form inside their sizes, the error registers are 0 while ERR is 0 and hold a row of the
error table while it is 1, and CMD holds a command's byte unless it holds the byte that raised
(10_state.md rules R19, R22 to R24, 60_exceptions.md rule R160). -/
def Obligations.StepKeepsInvariant : Prop :=
  ∀ s t : State, s.Inv → step s = .next t → t.Inv

/-- Errors are precise and all-or-nothing: a step that enters an error changes only CMD, ERR and the
three error registers, and takes its event off the script (60_exceptions.md rules R164, R165). -/
def Obligations.ErrorsArePrecise : Prop :=
  ∀ s t : State, s.err = false → step s = .next t → t.err = true →
    t = { s with
      script := s.script.tail, cmd := t.cmd, err := true, errCode := t.errCode
      errIdx := t.errIdx, errVal := t.errVal }

/-- Of the commands, only TENC with an out-of-range entry under the reject policy and SBNK with an
operand out of its range can raise, each with its own code (60_exceptions.md rules R160, R161). -/
def Obligations.OnlyTencAndSbnkRaise : Prop :=
  ∀ (i : Instr) (s t : State), s.err = false → exec i s = .next t → t.err = true →
    (i = .tenc ∧ t.errCode = 0x01 ∧ s.clamp = false ∧ ∃ k, 15 < (s.pxByte k).toNat) ∨
    (∃ p : Nibble, i = .sbnk p ∧ i.wellFormed = false ∧ t.errCode = 0x03)

/-- Only CLRE, SRST and a hardware reset end the error lock (60_exceptions.md rules R166, R168, R170). -/
def Obligations.ErrorLockEndsOnlyByAcknowledge : Prop :=
  ∀ s t : State, s.err = true → step s = .next t → t.err = false →
    ∃ rest, s.script = .write 0x280 0xE0 :: rest ∨ s.script = .write 0x280 0xF0 :: rest ∨
      s.script = .hardwareReset :: rest

/-- What each command leaves alone, from the "writes" column of 20_memory.md rule R55: CG always, and
each other element but for the commands that write it. ERR and the three error registers are written by
CLRE, SRST and the error entry of TENC and SBNK only (10_state.md rule R25, 60_exceptions.md rule R161).
CMD is written by every command, with its byte but for SRST (R55). -/
def Obligations.CommandsWriteOnlyTheirState : Prop :=
  ∀ (i : Instr) (s t : State), exec i s = .next t →
    t.cg = s.cg ∧ t.resets = s.resets ∧ t.script = s.script ∧ t.reads = s.reads ∧
    (i ≠ .tenc → t.tb = s.tb) ∧
    (i ≠ .tdec → t.px = s.px) ∧
    (i ≠ .srst → t.clamp = s.clamp ∧ t.ie = s.ie) ∧
    ((∀ b, i ≠ .pdec b) → i ≠ .pdcb → i ≠ .srst → t.pal = s.pal) ∧
    ((∀ b, i ≠ .pdec b) → (∀ p, i ≠ .sbnk p) → i ≠ .srst → t.bank = s.bank) ∧
    ((∀ n, i ≠ .clut n) → i ≠ .frgb → i ≠ .srst → t.color = s.color) ∧
    (i ≠ .trgb → i ≠ .srst → t.rgbR = s.rgbR ∧ t.rgbG = s.rgbG ∧ t.rgbB = s.rgbB) ∧
    (i ≠ .tenc → i ≠ .clre → i ≠ .srst → t.clamped = s.clamped) ∧
    (i ≠ .clre → i ≠ .srst →
      (i = .tenc → s.clamp = true ∨ ∀ k, (s.pxByte k).toNat ≤ 15) →
      (∀ p, i = .sbnk p → p.toNat ≤ 7) →
      t.err = s.err ∧ t.errCode = s.errCode ∧ t.errIdx = s.errIdx ∧ t.errVal = s.errVal) ∧
    (i ≠ .srst → t.cmd = encode i)

/-- PAL is a snapshot: a step that changes it is PDEC, PDCB, SRST or a hardware reset, never a write to
CG (41_palette_decoder.md rule R116, 70_reset_and_hazards.md rule R200). -/
def Obligations.PaletteChangesOnlyByDecodeOrReset : Prop :=
  ∀ s t : State, step s = .next t → t.pal ≠ s.pal →
    ∃ rest, s.script = .hardwareReset :: rest ∨
      ∃ w, s.script = .write 0x280 w :: rest ∧ (w.toNat / 16 = 0x3 ∨ w = 0x50 ∨ w = 0xF0)

/-- The colour table is the host's alone: a step after which a byte of CG reads otherwise is a host
write to that byte's own address, or a hardware reset (10_state.md rule R14). -/
def Obligations.ColorTableChangesOnlyByHost : Prop :=
  ∀ (s t : State) (a : CgAddr), step s = .next t → t.cgByte a ≠ s.cgByte a →
    ∃ rest, s.script = .hardwareReset :: rest ∨
      ∃ v, s.script = .write (BitVec.ofNat 10 a.toNat) v :: rest ∧ t.cgByte a = v

/-! Runs. -/

/-- A run performs its transactions one at a time, in order, and is never stuck: after any number `n` of
them there is a next state, with exactly the others still to perform; after the last there are none
(70_reset_and_hazards.md rule R204, 20_memory.md rule R56; the script is log entry 1). -/
def Obligations.RunPerformsItsTransactions : Prop :=
  ∀ (s : State) (transactions : List HostEvent) (n : Nat), n ≤ transactions.length →
    ∃ t, runState s transactions n = .next t ∧ t.script = transactions.drop n

/-- A failed command cannot turn into a later apparent success without an explicit CLRE or SRST: where a
run issues neither, STATUS.ERR = 0 in its final state is enough for the run to have succeeded, whatever
intermediate states the claim cares about (60_exceptions.md rule R166, 70_reset_and_hazards.md rule
R204). -/
def Obligations.NoSuccessAfterUnacknowledgedError : Prop :=
  ∀ (s : State) (transactions : List HostEvent) (cares : Nat → Prop),
    .hardwareReset ∉ transactions →
    .write 0x280 0xE0 ∉ transactions → .write 0x280 0xF0 ∉ transactions →
    errorFree (runState s transactions transactions.length) → RunSucceeded s transactions cares
end

