-- ==== Sys2Proof/Laws/Compressor.lean ====
section
/-! SUPPORT. What a bounded decompression answers. -/

namespace Sys2Proof.Machine

/-- It returns the provider's bytes, and only within the bound. -/
theorem decompressWithin_eq_ok (decompress : Bytes → Option Bytes) (bound : Nat) (x y : Bytes) :
    decompressWithin decompress bound x = .ok y ↔ decompress x = some y ∧ y.length ≤ bound := by
  unfold decompressWithin
  cases decompress x with
  | none => simp
  | some z => by_cases h : z.length ≤ bound <;> simp [h] <;> rintro rfl <;> omega

/-- It raises `CompressionRoundTripError` and no other error, where no bytes come out or too many. -/
theorem decompressWithin_eq_error (decompress : Bytes → Option Bytes) (bound : Nat) (x : Bytes)
    (e : HostError) :
    decompressWithin decompress bound x = .error e ↔
      e = .compressionRoundTrip ∧ ∀ y, decompress x = some y → bound < y.length := by
  unfold decompressWithin
  cases decompress x with
  | none => simp [eq_comm]
  | some z => by_cases h : z.length ≤ bound <;> simp [h, eq_comm]; omega

end Sys2Proof.Machine
end

