-- ==== Sys2Proof/Laws/Memory.lean ====
section
/-! SUPPORT. What the byte memories do: a read after a write, and the canonical form that every
operation keeps. -/

namespace Sys2Proof.Machine

@[simp] theorem Memory.read?_nil (a : Nat) : Memory.read? [] a = none := rfl

@[simp] theorem Memory.read?_write_same (m : Memory) (a : Nat) (v : Byte) :
    (m.write a v).read? a = some v := by
  induction m with
  | nil => simp [Memory.write, Memory.read?]
  | cons c m ih =>
    unfold Memory.write
    split_ifs with h1 h2
    · simp [Memory.read?]
    · simp [Memory.read?]
    · simp [Memory.read?, h2, ih]

theorem Memory.read?_write_other (m : Memory) {a b : Nat} (v : Byte) (h : b ≠ a) :
    (m.write a v).read? b = m.read? b := by
  induction m with
  | nil => simp [Memory.write, Memory.read?, h]
  | cons c m ih =>
    unfold Memory.write
    split_ifs with h1 h2
    · simp [Memory.read?, h]
    · subst h2
      simp [Memory.read?, h]
    · simp [Memory.read?, ih]

theorem Memory.mem_write {m : Memory} {a : Nat} {v : Byte} {c : Host.Cell} (h : c ∈ m.write a v) :
    c = (a, v) ∨ c ∈ m := by
  induction m with
  | nil => simpa [Memory.write] using h
  | cons d m ih =>
    unfold Memory.write at h
    split_ifs at h with h1 h2
    · simpa using h
    · rcases List.mem_cons.mp h with h | h
      · exact .inl h
      · exact .inr (List.mem_cons_of_mem _ h)
    · rcases List.mem_cons.mp h with h | h
      · exact .inr (h ▸ List.mem_cons_self)
      · exact (ih h).imp_right (List.mem_cons_of_mem _)

/-- A write keeps the canonical form. -/
theorem Memory.write_wf {m : Memory} (a : Nat) (v : Byte) (h : m.wf) : (m.write a v).wf := by
  induction m with
  | nil => simp [Memory.write]
  | cons c m ih =>
    obtain ⟨hc, hm⟩ := List.pairwise_cons.mp h
    unfold Memory.write
    split_ifs with h1 h2
    · refine List.pairwise_cons.mpr ⟨fun d hd => ?_, h⟩
      rcases List.mem_cons.mp hd with hd | hd
      · exact hd ▸ h1
      · exact lt_trans h1 (hc d hd)
    · exact List.pairwise_cons.mpr ⟨fun d hd => h2 ▸ hc d hd, hm⟩
    · refine List.pairwise_cons.mpr ⟨fun d hd => ?_, ih hm⟩
      rcases Memory.mem_write hd with hd | hd
      · subst hd; show c.1 < a; omega
      · exact hc d hd

/-- A write inside the memory's size keeps the listed indices inside it. -/
theorem Memory.write_below {m : Memory} {n a : Nat} (v : Byte) (ha : a < n) (h : m.below n) :
    (m.write a v).below n := fun c hc => by
  rcases Memory.mem_write hc with hc | hc
  · exact hc ▸ ha
  · exact h c hc

/-- Writing a byte twice is writing it once (20_memory.md rule R46). -/
theorem Memory.write_write_same (m : Memory) (a : Nat) (v : Byte) :
    (m.write a v).write a v = m.write a v := by
  induction m with
  | nil => simp [Memory.write]
  | cons c m ih =>
    by_cases h1 : a < c.1
    · simp [Memory.write, h1]
    · by_cases h2 : a = c.1
      · simp [Memory.write, h2]
      · simp [Memory.write, h1, h2, ih]

theorem Memory.read?_of_wf_cons {c : Host.Cell} {m : Memory} {a : Nat} (h : a ≠ c.1) :
    Memory.read? (c :: m) a = Memory.read? m a := by
  simp [Memory.read?, h]

theorem Memory.read?_ofFn {n : Nat} (base : Nat) (f : Fin n → Byte) (k : Fin n) :
    Memory.read? (List.ofFn fun i : Fin n => (base + i.val, f i)) (base + k.val) = some (f k) := by
  induction n generalizing base with
  | zero => exact k.elim0
  | succ n ih =>
    rw [List.ofFn_succ]
    refine Fin.cases ?_ (fun k => ?_) k
    · simp [Memory.read?]
    · have hne : base + k.succ.val ≠ base + (0 : Fin (n + 1)).val := by simp
      rw [Memory.read?_of_wf_cons hne]
      have := ih (base + 1) (fun i => f i.succ) k
      simpa [Nat.add_assoc, Nat.add_comm 1] using this

/-- Every entry of a table reads as the table says. -/
@[simp] theorem Memory.read?_table {n : Nat} (f : Fin n → Byte) (k : Fin n) :
    (Memory.table f).read? k.val = some (f k) := by
  simpa [Memory.table] using Memory.read?_ofFn 0 f k

/-- A table has the canonical form. -/
theorem Memory.table_wf {n : Nat} (f : Fin n → Byte) : (Memory.table f).wf := by
  rw [Memory.wf, Memory.table, List.pairwise_ofFn]
  exact fun i j h => h

/-- A table of `n` entries lies below `n`. -/
theorem Memory.table_below {n : Nat} (f : Fin n → Byte) : (Memory.table f).below n := fun c hc => by
  obtain ⟨i, rfl⟩ := (List.mem_ofFn' _ _).mp hc
  exact i.isLt

/-- A memory with nothing listed, as after a reset, has the canonical form. -/
theorem Memory.nil_wf : Memory.wf [] := List.Pairwise.nil

/-- The memories after reset have the canonical form. -/
theorem reset_memories_wf : State.reset.cg.wf ∧ State.reset.tb.wf ∧ State.reset.px.wf :=
  ⟨Memory.nil_wf, Memory.nil_wf, Memory.nil_wf⟩

end Sys2Proof.Machine
end

