-- ==== Sys2Proof/Laws/Palette.lean ====
section
/-! SUPPORT. The values of the palette functions as plain numbers (41_palette_decoder.md rule R128). -/

namespace Sys2Proof.Machine

/-- `caddr(b, n)` never overflows its 9 bits. -/
theorem caddr_toNat (b n : Nibble) : (caddr b n).toNat = 32 * b.toNat + 2 * n.toNat := by
  have hb := b.isLt
  have hn := n.isLt
  simp [caddr, BitVec.toNat_add, BitVec.toNat_mul]
  omega

/-- A colour-table word as a number. -/
theorem word16_toNat (lo hi : Byte) : (word16 lo hi).toNat = lo.toNat + 256 * hi.toNat := by
  have hl := lo.isLt
  have hh := hi.isLt
  have h := Nat.two_pow_add_eq_or_of_lt (i := 8) hl hi.toNat
  simp only [word16, BitVec.toNat_or, BitVec.toNat_shiftLeft, BitVec.toNat_setWidth, Nat.shiftLeft_eq]
  rw [Nat.mod_eq_of_lt (by omega), Nat.mod_eq_of_lt (by omega), Nat.mod_eq_of_lt (by omega), Nat.or_comm,
    Nat.mul_comm, ← h]
  omega

/-- A colour drops bit 15 of its word (20_memory.md rule R50). -/
theorem colorOfWord_toNat (w : BitVec 16) : (colorOfWord w).toNat = w.toNat % 2 ^ 15 := by
  simp [colorOfWord]

/-- `color15(b, n)` as a number (41_palette_decoder.md rule R110). -/
theorem color15_toNat (s : State) (b n : Nibble) :
    (s.color15 b n).toNat =
      ((s.cgByte (caddr b n)).toNat + 256 * (s.cgByte (caddr b n + 1)).toNat) % 2 ^ 15 := by
  rw [State.color15, State.cg16, colorOfWord_toNat, word16_toNat]

/-- Entry `k` of a decoded bank (41_palette_decoder.md rule R112). -/
theorem decodeBank_getElem (s : State) (b : Nibble) (k : Nat) (h : k < 16) :
    (s.decodeBank b)[k] = s.color15 b (BitVec.ofNat 4 k) := by
  have hk : (BitVec.ofFin ⟨k, h⟩ : Nibble) = BitVec.ofNat 4 k := by
    apply BitVec.eq_of_toNat_eq
    simp [Nat.mod_eq_of_lt h]
  simp [State.decodeBank, ← hk]

theorem red_toNat (c : Color15) : (red c).toNat = c.toNat % 32 := by simp [red]

theorem green_toNat (c : Color15) : (green c).toNat = c.toNat / 32 % 32 := by
  simp [green, Nat.shiftRight_eq_div_pow]

theorem blue_toNat (c : Color15) : (blue c).toNat = c.toNat / 1024 := by
  have := c.isLt
  simp [blue, Nat.shiftRight_eq_div_pow]
  omega

theorem scaleChannel_toNat (ch : BitVec 5) : (scaleChannel ch).toNat = ch.toNat * 8 := by
  have := ch.isLt
  simp [scaleChannel, BitVec.toNat_mul]
  omega

theorem truncateChannel_toNat (x : Byte) : (truncateChannel x).toNat = x.toNat / 8 := by
  have := x.isLt
  simp [truncateChannel, Nat.shiftRight_eq_div_pow]
  omega

/-- `from_rgb8` as a number (41_palette_decoder.md rule R115). -/
theorem fromRgb8_toNat (r g b : Byte) :
    (fromRgb8 r g b).toNat = r.toNat / 8 + 32 * (g.toNat / 8) + 1024 * (b.toNat / 8) := by
  have h1 := (truncateChannel r).isLt
  have h2 := (truncateChannel g).isLt
  have h3 := (truncateChannel b).isLt
  have e1 := Nat.two_pow_add_eq_or_of_lt (i := 5) h1 (truncateChannel g).toNat
  have e2 := Nat.two_pow_add_eq_or_of_lt (i := 10) (b := (truncateChannel r).toNat + 32 * (truncateChannel g).toNat)
    (by omega) (truncateChannel b).toNat
  simp only [fromRgb8, BitVec.toNat_or, BitVec.toNat_shiftLeft, BitVec.toNat_setWidth, Nat.shiftLeft_eq]
  rw [Nat.mod_eq_of_lt (a := (truncateChannel r).toNat) (by omega),
    Nat.mod_eq_of_lt (a := (truncateChannel g).toNat) (by omega),
    Nat.mod_eq_of_lt (a := (truncateChannel b).toNat) (by omega),
    Nat.mod_eq_of_lt (a := (truncateChannel g).toNat * 2 ^ 5) (by omega),
    Nat.mod_eq_of_lt (a := (truncateChannel b).toNat * 2 ^ 10) (by omega),
    Nat.or_comm (truncateChannel r).toNat, Nat.mul_comm _ (2 ^ 5), ← e1, Nat.or_comm, Nat.mul_comm _ (2 ^ 10),
    Nat.add_comm (2 ^ 5 * _), show (2 : Nat) ^ 5 = 32 by rfl, ← e2,
    truncateChannel_toNat, truncateChannel_toNat, truncateChannel_toNat]
  omega

/-- `sprite_bank_for` is `p + 8` on 0 to 7 and undefined above (41_palette_decoder.md rule R113). -/
theorem spriteBankFor_le {p : Nibble} (h : p.toNat ≤ 7) : spriteBankFor p = some (p + 8) := by
  simp [spriteBankFor, h]

theorem spriteBankFor_gt {p : Nibble} (h : 7 < p.toNat) : spriteBankFor p = none := by
  simp [spriteBankFor]; omega

end Sys2Proof.Machine
end

