-- ==== Sys2Proof/Laws/State.lean ====
section
/-! SUPPORT. One lemma per field for each named update of the state, so that no proof unfolds a record
update: error entry, the return from an error, soft reset, hardware reset. -/

namespace Sys2Proof.Machine

@[simp] theorem raiseError_cg (w : Byte) (e : CmdError) (idx val : Byte) (s : State) :
    (raiseError w e idx val s).cg = s.cg := rfl

@[simp] theorem raiseError_tb (w : Byte) (e : CmdError) (idx val : Byte) (s : State) :
    (raiseError w e idx val s).tb = s.tb := rfl

@[simp] theorem raiseError_px (w : Byte) (e : CmdError) (idx val : Byte) (s : State) :
    (raiseError w e idx val s).px = s.px := rfl

@[simp] theorem raiseError_pal (w : Byte) (e : CmdError) (idx val : Byte) (s : State) :
    (raiseError w e idx val s).pal = s.pal := rfl

@[simp] theorem raiseError_bank (w : Byte) (e : CmdError) (idx val : Byte) (s : State) :
    (raiseError w e idx val s).bank = s.bank := rfl

@[simp] theorem raiseError_color (w : Byte) (e : CmdError) (idx val : Byte) (s : State) :
    (raiseError w e idx val s).color = s.color := rfl

@[simp] theorem raiseError_rgbR (w : Byte) (e : CmdError) (idx val : Byte) (s : State) :
    (raiseError w e idx val s).rgbR = s.rgbR := rfl

@[simp] theorem raiseError_rgbG (w : Byte) (e : CmdError) (idx val : Byte) (s : State) :
    (raiseError w e idx val s).rgbG = s.rgbG := rfl

@[simp] theorem raiseError_rgbB (w : Byte) (e : CmdError) (idx val : Byte) (s : State) :
    (raiseError w e idx val s).rgbB = s.rgbB := rfl

@[simp] theorem raiseError_cmd (w : Byte) (e : CmdError) (idx val : Byte) (s : State) :
    (raiseError w e idx val s).cmd = w := rfl

@[simp] theorem raiseError_clamp (w : Byte) (e : CmdError) (idx val : Byte) (s : State) :
    (raiseError w e idx val s).clamp = s.clamp := rfl

@[simp] theorem raiseError_ie (w : Byte) (e : CmdError) (idx val : Byte) (s : State) :
    (raiseError w e idx val s).ie = s.ie := rfl

@[simp] theorem raiseError_err (w : Byte) (e : CmdError) (idx val : Byte) (s : State) :
    (raiseError w e idx val s).err = true := rfl

@[simp] theorem raiseError_clamped (w : Byte) (e : CmdError) (idx val : Byte) (s : State) :
    (raiseError w e idx val s).clamped = s.clamped := rfl

@[simp] theorem raiseError_errCode (w : Byte) (e : CmdError) (idx val : Byte) (s : State) :
    (raiseError w e idx val s).errCode = e.code := rfl

@[simp] theorem raiseError_errIdx (w : Byte) (e : CmdError) (idx val : Byte) (s : State) :
    (raiseError w e idx val s).errIdx = idx := rfl

@[simp] theorem raiseError_errVal (w : Byte) (e : CmdError) (idx val : Byte) (s : State) :
    (raiseError w e idx val s).errVal = val := rfl

@[simp] theorem raiseError_resets (w : Byte) (e : CmdError) (idx val : Byte) (s : State) :
    (raiseError w e idx val s).resets = s.resets := rfl

@[simp] theorem raiseError_script (w : Byte) (e : CmdError) (idx val : Byte) (s : State) :
    (raiseError w e idx val s).script = s.script := rfl

@[simp] theorem raiseError_reads (w : Byte) (e : CmdError) (idx val : Byte) (s : State) :
    (raiseError w e idx val s).reads = s.reads := rfl

@[simp] theorem clearErrors_cg (s : State) :
    (clearErrors s).cg = s.cg := rfl

@[simp] theorem clearErrors_tb (s : State) :
    (clearErrors s).tb = s.tb := rfl

@[simp] theorem clearErrors_px (s : State) :
    (clearErrors s).px = s.px := rfl

@[simp] theorem clearErrors_pal (s : State) :
    (clearErrors s).pal = s.pal := rfl

@[simp] theorem clearErrors_bank (s : State) :
    (clearErrors s).bank = s.bank := rfl

@[simp] theorem clearErrors_color (s : State) :
    (clearErrors s).color = s.color := rfl

@[simp] theorem clearErrors_rgbR (s : State) :
    (clearErrors s).rgbR = s.rgbR := rfl

@[simp] theorem clearErrors_rgbG (s : State) :
    (clearErrors s).rgbG = s.rgbG := rfl

@[simp] theorem clearErrors_rgbB (s : State) :
    (clearErrors s).rgbB = s.rgbB := rfl

@[simp] theorem clearErrors_cmd (s : State) :
    (clearErrors s).cmd = s.cmd := rfl

@[simp] theorem clearErrors_clamp (s : State) :
    (clearErrors s).clamp = s.clamp := rfl

@[simp] theorem clearErrors_ie (s : State) :
    (clearErrors s).ie = s.ie := rfl

@[simp] theorem clearErrors_err (s : State) :
    (clearErrors s).err = false := rfl

@[simp] theorem clearErrors_clamped (s : State) :
    (clearErrors s).clamped = false := rfl

@[simp] theorem clearErrors_errCode (s : State) :
    (clearErrors s).errCode = 0 := rfl

@[simp] theorem clearErrors_errIdx (s : State) :
    (clearErrors s).errIdx = 0 := rfl

@[simp] theorem clearErrors_errVal (s : State) :
    (clearErrors s).errVal = 0 := rfl

@[simp] theorem clearErrors_resets (s : State) :
    (clearErrors s).resets = s.resets := rfl

@[simp] theorem clearErrors_script (s : State) :
    (clearErrors s).script = s.script := rfl

@[simp] theorem clearErrors_reads (s : State) :
    (clearErrors s).reads = s.reads := rfl

@[simp] theorem softReset_cg (s : State) :
    (softReset s).cg = s.cg := rfl

@[simp] theorem softReset_tb (s : State) :
    (softReset s).tb = s.tb := rfl

@[simp] theorem softReset_px (s : State) :
    (softReset s).px = s.px := rfl

@[simp] theorem softReset_pal (s : State) :
    (softReset s).pal = Vector.replicate 16 0 := rfl

@[simp] theorem softReset_bank (s : State) :
    (softReset s).bank = 0 := rfl

@[simp] theorem softReset_color (s : State) :
    (softReset s).color = 0 := rfl

@[simp] theorem softReset_rgbR (s : State) :
    (softReset s).rgbR = 0 := rfl

@[simp] theorem softReset_rgbG (s : State) :
    (softReset s).rgbG = 0 := rfl

@[simp] theorem softReset_rgbB (s : State) :
    (softReset s).rgbB = 0 := rfl

@[simp] theorem softReset_cmd (s : State) :
    (softReset s).cmd = 0 := rfl

@[simp] theorem softReset_clamp (s : State) :
    (softReset s).clamp = false := rfl

@[simp] theorem softReset_ie (s : State) :
    (softReset s).ie = false := rfl

@[simp] theorem softReset_err (s : State) :
    (softReset s).err = false := rfl

@[simp] theorem softReset_clamped (s : State) :
    (softReset s).clamped = false := rfl

@[simp] theorem softReset_errCode (s : State) :
    (softReset s).errCode = 0 := rfl

@[simp] theorem softReset_errIdx (s : State) :
    (softReset s).errIdx = 0 := rfl

@[simp] theorem softReset_errVal (s : State) :
    (softReset s).errVal = 0 := rfl

@[simp] theorem softReset_resets (s : State) :
    (softReset s).resets = s.resets := rfl

@[simp] theorem softReset_script (s : State) :
    (softReset s).script = s.script := rfl

@[simp] theorem softReset_reads (s : State) :
    (softReset s).reads = s.reads := rfl

@[simp] theorem hardwareReset_cg (s : State) :
    (hardwareReset s).cg = [] := rfl

@[simp] theorem hardwareReset_tb (s : State) :
    (hardwareReset s).tb = [] := rfl

@[simp] theorem hardwareReset_px (s : State) :
    (hardwareReset s).px = [] := rfl

@[simp] theorem hardwareReset_pal (s : State) :
    (hardwareReset s).pal = Vector.replicate 16 0 := rfl

@[simp] theorem hardwareReset_bank (s : State) :
    (hardwareReset s).bank = 0 := rfl

@[simp] theorem hardwareReset_color (s : State) :
    (hardwareReset s).color = 0 := rfl

@[simp] theorem hardwareReset_rgbR (s : State) :
    (hardwareReset s).rgbR = 0 := rfl

@[simp] theorem hardwareReset_rgbG (s : State) :
    (hardwareReset s).rgbG = 0 := rfl

@[simp] theorem hardwareReset_rgbB (s : State) :
    (hardwareReset s).rgbB = 0 := rfl

@[simp] theorem hardwareReset_cmd (s : State) :
    (hardwareReset s).cmd = 0 := rfl

@[simp] theorem hardwareReset_clamp (s : State) :
    (hardwareReset s).clamp = false := rfl

@[simp] theorem hardwareReset_ie (s : State) :
    (hardwareReset s).ie = false := rfl

@[simp] theorem hardwareReset_err (s : State) :
    (hardwareReset s).err = false := rfl

@[simp] theorem hardwareReset_clamped (s : State) :
    (hardwareReset s).clamped = false := rfl

@[simp] theorem hardwareReset_errCode (s : State) :
    (hardwareReset s).errCode = 0 := rfl

@[simp] theorem hardwareReset_errIdx (s : State) :
    (hardwareReset s).errIdx = 0 := rfl

@[simp] theorem hardwareReset_errVal (s : State) :
    (hardwareReset s).errVal = 0 := rfl

@[simp] theorem hardwareReset_resets (s : State) :
    (hardwareReset s).resets = s.resets + 1 := rfl

@[simp] theorem hardwareReset_script (s : State) :
    (hardwareReset s).script = s.script := rfl

@[simp] theorem hardwareReset_reads (s : State) :
    (hardwareReset s).reads = s.reads := rfl

end Sys2Proof.Machine
end

