-- ==== Sys2Proof/Laws/TileCodec.lean ====
section
/-! SUPPORT. What the codec's functions do, bit by bit, and what the scan for an out-of-range entry
answers (40_tile_codec.md rules R90, R91, R95). -/

namespace Sys2Proof.Machine

@[simp] theorem pixelRow_pixelIndex (r c : Fin 8) : pixelRow (pixelIndex r c) = r := by
  ext; simp [pixelRow, pixelIndex]; omega

@[simp] theorem pixelColumn_pixelIndex (r c : Fin 8) : pixelColumn (pixelIndex r c) = c := by
  ext; simp [pixelColumn, pixelIndex]

@[simp] theorem pixelIndex_row_column (k : Fin 64) : pixelIndex (pixelRow k) (pixelColumn k) = k := by
  ext; simp [pixelRow, pixelColumn, pixelIndex]; omega

theorem byteBit_getLsbD (t : Byte) (n : Fin 8) (i : Nat) :
    (byteBit t n).getLsbD i = (decide (i = 0) && t.getLsbD n) := by
  by_cases h : i = 0 <;> simp [byteBit, h]

theorem pixelBit_getLsbD (g : Nibble) (i : Fin 4) (n : Nat) :
    (pixelBit g i).getLsbD n = (decide (n = 0) && g.getLsbD i) := by
  have hi := i.isLt
  by_cases h : n = 0 <;> simp [pixelBit, h]
  exact fun _ => by omega

/-- Bit `i` of pixel `k` of a decoded tile is one bit of one byte: bitplane `i` contributes bit `i`
(40_tile_codec.md rule R90). -/
theorem decodeTile_getLsbD (geo : TileGeometry) (t : Tile) (k : Fin 64) (i : Fin 4) :
    (decodeTile geo t k).getLsbD i =
      (t (geo.off i (pixelRow k))).getLsbD (geo.bitpos (pixelColumn k)) := by
  unfold decodeTile
  fin_cases i <;> simp only [BitVec.getLsbD_or, BitVec.getLsbD_shiftLeft, byteBit_getLsbD] <;> simp

theorem foldl_or_getLsbD (geo : TileGeometry) (f : Fin 8 → Byte) (hf : ∀ c n, (f c).getLsbD n = (decide (n = 0) && (f c).getLsbD 0))
    (b : Fin 8) (l : List (Fin 8)) (acc : Byte) :
    (l.foldl (fun acc c => acc ||| f c <<< (geo.bitpos c).val) acc).getLsbD b =
      (acc.getLsbD b || l.any fun c => decide (geo.bitpos c = b) && (f c).getLsbD 0) := by
  induction l generalizing acc with
  | nil => simp
  | cons c l ih =>
    have hc : (f c <<< (geo.bitpos c).val).getLsbD b = (decide (geo.bitpos c = b) && (f c).getLsbD 0) := by
      rw [BitVec.getLsbD_shiftLeft, hf]
      have h1 := (geo.bitpos c).isLt
      have h2 := b.isLt
      by_cases h : geo.bitpos c = b
      · simp [h]
      · have h' : (geo.bitpos c).val ≠ b.val := fun e => h (Fin.ext e)
        by_cases hlt : b.val < (geo.bitpos c).val
        · simp [h, hlt]
        · have : b.val - (geo.bitpos c).val ≠ 0 := by omega
          simp [h, this]
    rw [List.foldl_cons, ih, BitVec.getLsbD_or, hc, List.any_cons, Bool.or_assoc]

/-- Bit `bitpos(c)` of row `r` of bitplane `i` is bit `i` of one pixel (40_tile_codec.md rule R91). -/
theorem planeRowByte_getLsbD (geo : TileGeometry) (g : Grid) (i : Fin 4) (r : Fin 8) (b : Fin 8) :
    (planeRowByte geo g i r).getLsbD b = (g (pixelIndex r (geo.column b))).getLsbD i := by
  have hf : ∀ c n, (pixelBit (g (pixelIndex r c)) i).getLsbD n =
      (decide (n = 0) && (pixelBit (g (pixelIndex r c)) i).getLsbD 0) := by
    intro c n; rw [pixelBit_getLsbD, pixelBit_getLsbD]; simp
  rw [planeRowByte, foldl_or_getLsbD geo (fun c => pixelBit (g (pixelIndex r c)) i) hf]
  have h0 : (0 : Byte).getLsbD b = false := by simp
  rw [h0, Bool.false_or, Bool.eq_iff_iff, List.any_eq_true]
  constructor
  · rintro ⟨c, -, hc⟩
    rw [Bool.and_eq_true, decide_eq_true_eq] at hc
    rw [← hc.1, geo.column_bitpos]
    have h2 := hc.2
    rw [pixelBit_getLsbD] at h2
    simpa using h2
  · intro h
    exact ⟨geo.column b, List.mem_finRange _, by rw [geo.bitpos_column, pixelBit_getLsbD, h]; simp⟩

/-- Byte `off(i, r)` of an encoded tile, bit by bit (40_tile_codec.md rule R91). -/
theorem encodeTile_off_getLsbD (geo : TileGeometry) (g : Grid) (i : Fin 4) (r c : Fin 8) :
    (encodeTile geo g (geo.off i r)).getLsbD (geo.bitpos c) = (g (pixelIndex r c)).getLsbD i := by
  rw [encodeTile, geo.plane_off, geo.row_off, planeRowByte_getLsbD, geo.column_bitpos]

theorem outOfRange_iff (v : Byte) : outOfRange v = true ↔ 15 < v.toNat := by simp [outOfRange]

/-- No entry is out of range exactly where the scan answers none. -/
theorem firstOor_eq_none (px : PixelBuffer) : firstOor px = none ↔ ∀ k, (px k).toNat ≤ 15 := by
  simp [firstOor, List.find?_eq_none, outOfRange]

/-- The scan answers the least out-of-range entry (40_tile_codec.md rule R95). -/
theorem firstOor_eq_some (px : PixelBuffer) (k : Fin 64) :
    firstOor px = some k ↔ 15 < (px k).toNat ∧ ∀ j < k, (px j).toNat ≤ 15 := by
  have hs : (List.finRange 64).Pairwise (· < ·) := List.pairwise_lt_finRange 64
  rw [firstOor, List.find?_eq_some_iff_append]
  constructor
  · rintro ⟨hk, as, bs, he, ha⟩
    refine ⟨by simpa [outOfRange] using hk, fun j hj => ?_⟩
    have hm : j ∈ as ++ k :: bs := he ▸ List.mem_finRange j
    rw [he, List.pairwise_append, List.pairwise_cons] at hs
    rcases List.mem_append.mp hm with hm | hm
    · simpa [outOfRange] using ha j hm
    · rcases List.mem_cons.mp hm with rfl | hm
      · exact absurd hj (lt_irrefl _)
      · exact absurd (hs.2.1.1 j hm) (lt_asymm hj)
  · rintro ⟨hk, hlt⟩
    obtain ⟨as, bs, he⟩ := List.append_of_mem (List.mem_finRange k)
    refine ⟨by simpa [outOfRange] using hk, as, bs, he, fun j hj => ?_⟩
    rw [he, List.pairwise_append] at hs
    simpa [outOfRange] using hlt j (hs.2.2 j hj k List.mem_cons_self)

/-- A clamped entry is `min(v, 15)` (40_tile_codec.md rule R97). -/
theorem clampPixel_toNat (v : Byte) : (clampPixel v).toNat = min v.toNat 15 := by
  unfold clampPixel outOfRange
  by_cases h : 15 < v.toNat
  · simp [h]; omega
  · simp [h]; omega

/-- A TB that holds a table reads as the table. -/
theorem tbByte_of_table {s : State} {t : Tile} (h : s.tb = Memory.table t) : s.tbByte = t := by
  funext j
  simp [State.tbByte, h]

/-- A PX that holds a table reads as the table. -/
theorem pxByte_of_table {s : State} {p : PixelBuffer} (h : s.px = Memory.table p) : s.pxByte = p := by
  funext k
  simp [State.pxByte, h]

end Sys2Proof.Machine
end

