-- ==== Sys2Proof/Laws/Exec.lean ====
section
/-! SUPPORT. What each meaning answers, as one equation or one case split, so that a proof cites it and
does not unfold the meaning. -/

namespace Sys2Proof.Machine

/-- A completed command answers the state it was given with CMD at its byte. -/
theorem completes_eq (i : Instr) (s : State) : completes i s = .next { s with cmd := encode i } := rfl

theorem execNop_eq (s : State) : exec .nop s = .next { s with cmd := encode .nop } := rfl

theorem execTdec_eq (s : State) :
    exec .tdec s = .next
      { s with
        cmd := encode .tdec
        px := Memory.table fun k => (decodeTile machineGeometry s.tbByte k).setWidth 8 } := rfl

/-- TENC that rejects (40_tile_codec.md rule R96). -/
theorem execTenc_reject {s : State} {k : Fin 64} (h : firstOor s.pxByte = some k)
    (hc : s.clamp = false) :
    exec .tenc s =
      .next (raiseError (encode .tenc) .pixRange (BitVec.ofNat 8 k.val) (s.pxByte k) s) := by
  simp only [exec, execTenc, h, hc]

/-- TENC that encodes (40_tile_codec.md rules R97, R98). -/
theorem execTenc_encode {s : State} (h : firstOor s.pxByte = none ∨ s.clamp = true) :
    exec .tenc s = .next
      { s with
        cmd := encode .tenc
        tb := Memory.table (encodeTile machineGeometry fun k => clampPixel (s.pxByte k))
        clamped := clampedAfter (firstOor s.pxByte) s.clamped } := by
  simp only [exec, execTenc]
  rcases h with h | h
  · simp [h, completes]
  · rw [h]
    cases firstOor s.pxByte <;> rfl

/-- TENC does one of two things. -/
theorem execTenc_cases (s : State) :
    (∃ k, firstOor s.pxByte = some k ∧ s.clamp = false ∧
      exec .tenc s =
        .next (raiseError (encode .tenc) .pixRange (BitVec.ofNat 8 k.val) (s.pxByte k) s)) ∨
    ((firstOor s.pxByte = none ∨ s.clamp = true) ∧
      exec .tenc s = .next
        { s with
          cmd := encode .tenc
          tb := Memory.table (encodeTile machineGeometry fun k => clampPixel (s.pxByte k))
          clamped := clampedAfter (firstOor s.pxByte) s.clamped }) := by
  cases hf : firstOor s.pxByte with
  | none => exact .inr ⟨.inl rfl, hf ▸ execTenc_encode (.inl hf)⟩
  | some k =>
    by_cases hc : s.clamp = true
    · exact .inr ⟨.inr hc, hf ▸ execTenc_encode (.inr hc)⟩
    · have hc' : s.clamp = false := by simpa using hc
      exact .inl ⟨k, rfl, hc', execTenc_reject hf hc'⟩

theorem execPdec_eq (b : Nibble) (s : State) :
    exec (.pdec b) s =
      .next { s with cmd := encode (.pdec b), bank := b, pal := s.decodeBank b } := rfl

theorem execPdcb_eq (s : State) :
    exec .pdcb s = .next { s with cmd := encode .pdcb, pal := s.decodeBank s.bank } := rfl

theorem execSbnk_legal {p : Nibble} (h : p.toNat ≤ 7) (s : State) :
    exec (.sbnk p) s = .next { s with cmd := encode (.sbnk p), bank := p + 8 } := by
  simp only [exec, execSbnk, spriteBankFor_le h, completes]

theorem execSbnk_illegal {p : Nibble} (h : 7 < p.toNat) (s : State) :
    exec (.sbnk p) s = .next (raiseError (encode (.sbnk p)) .opRange 0 (p.setWidth 8) s) := by
  simp only [exec, execSbnk, spriteBankFor_gt h]

theorem execClut_eq (n : Nibble) (s : State) :
    exec (.clut n) s = .next { s with cmd := encode (.clut n), color := s.color15 s.bank n } := rfl

theorem execTrgb_eq (s : State) :
    exec .trgb s = .next
      { s with
        cmd := encode .trgb
        rgbR := scaleChannel (red s.color)
        rgbG := scaleChannel (green s.color)
        rgbB := scaleChannel (blue s.color) } := rfl

theorem execFrgb_eq (s : State) :
    exec .frgb s =
      .next { s with cmd := encode .frgb, color := fromRgb8 s.rgbR s.rgbG s.rgbB } := rfl

theorem execClre_eq (s : State) :
    exec .clre s = .next { clearErrors s with cmd := encode .clre } := rfl

theorem execSrst_eq (s : State) : exec .srst s = .next (softReset s) := rfl

end Sys2Proof.Machine
end

