-- ==== Sys2Proof/Laws/HostPort.lean ====
section
/-! SUPPORT. The address map, region by region, what a host write and an issued command can do, and
what one step can do. -/

namespace Sys2Proof.Machine

/-! The address map (20_memory.md rule R43). -/

theorem locate_cg {a : LocalAddr} (h : a.toNat < 0x200) : locate a = .cg (a.setWidth 9) := by
  simp [locate, h]

theorem locate_tb (j : Fin 32) : locate (BitVec.ofNat 10 (0x200 + j.val)) = .tb j := by
  revert j; decide

theorem locate_palLo (k : Fin 16) : locate (BitVec.ofNat 10 (0x220 + 2 * k.val)) = .palLo k := by
  revert k; decide

theorem locate_palHi (k : Fin 16) : locate (BitVec.ofNat 10 (0x221 + 2 * k.val)) = .palHi k := by
  revert k; decide

theorem locate_px (k : Fin 64) : locate (BitVec.ofNat 10 (0x240 + k.val)) = .px k := by
  revert k; decide

theorem registerAt_reserved {n : Nat} (h : n = 0x287 ∨ 0x28D ≤ n) : registerAt n = .reserved := by
  unfold registerAt
  split <;> first | rfl | omega

theorem locate_reserved {a : LocalAddr} (h : a = 0x287 ∨ 0x28D ≤ a.toNat) :
    locate a = .reserved := by
  rcases h with rfl | h
  · rfl
  · have h' : registerAt a.toNat = .reserved := registerAt_reserved (.inr h)
    unfold locate
    rw [if_neg (by omega), dif_neg (by omega), dif_neg (by omega), dif_neg (by omega), h']

theorem registerAt_eq_cmd {n : Nat} : registerAt n = .cmd ↔ n = 0x280 := by
  constructor
  · intro h
    unfold registerAt at h
    split at h <;> first | rfl | cases h
  · rintro rfl; rfl

/-- Only 0x280 is CMD. -/
theorem locate_eq_cmd {a : LocalAddr} : locate a = .cmd ↔ a = 0x280 := by
  constructor
  · intro h
    unfold locate at h
    split_ifs at h
    exact BitVec.eq_of_toNat_eq (registerAt_eq_cmd.mp h)
  · rintro rfl; rfl

/-! The two halves of a colour (10_state.md rule R17). -/

theorem colorLoByte_setColorLo (c : Color15) (v : Byte) : colorLoByte (setColorLo c v) = v := by
  apply BitVec.eq_of_getLsbD_eq
  intro i hi
  simp only [colorLoByte, setColorLo, BitVec.getLsbD_extractLsb', BitVec.getLsbD_append]
  simp [hi]

theorem colorHiByte_setColorLo (c : Color15) (v : Byte) :
    colorHiByte (setColorLo c v) = colorHiByte c := by
  apply BitVec.eq_of_getLsbD_eq
  intro i hi
  simp only [colorHiByte, setColorLo, BitVec.getLsbD_setWidth, BitVec.getLsbD_extractLsb',
    BitVec.getLsbD_append]
  by_cases h : i < 7 <;> simp [h]

theorem colorLoByte_setColorHi (c : Color15) (v : Byte) :
    colorLoByte (setColorHi c v) = colorLoByte c := by
  apply BitVec.eq_of_getLsbD_eq
  intro i hi
  simp only [colorLoByte, setColorHi, BitVec.getLsbD_extractLsb', BitVec.getLsbD_append]
  simp [hi]

theorem colorHiByte_setColorHi (c : Color15) (v : Byte) :
    colorHiByte (setColorHi c v) = (v.extractLsb' 0 7).setWidth 8 := by
  apply BitVec.eq_of_getLsbD_eq
  intro i hi
  simp only [colorHiByte, setColorHi, BitVec.getLsbD_setWidth, BitVec.getLsbD_extractLsb',
    BitVec.getLsbD_append]
  by_cases h : i < 7 <;> simp [h]

/-- A write to CMD issues a command. -/
theorem hostWrite_cmd (v : Byte) (s : State) : hostWrite 0x280 v s = issue v s := rfl

/-- A write to any other location is a plain write. -/
theorem hostWrite_other {a : LocalAddr} (h : a ≠ 0x280) (v : Byte) (s : State) :
    hostWrite a v s = .next (writeLocation s v (locate a)) := by
  have hc : locate a ≠ .cmd := fun e => h (locate_eq_cmd.mp e)
  unfold hostWrite
  split
  · exact absurd ‹_› hc
  · rfl

/-- What a plain host write leaves alone. -/
theorem writeLocation_frame (s : State) (v : Byte) (l : Location) :
    (writeLocation s v l).pal = s.pal ∧ (writeLocation s v l).cmd = s.cmd ∧
    (writeLocation s v l).err = s.err ∧ (writeLocation s v l).clamped = s.clamped ∧
    (writeLocation s v l).errCode = s.errCode ∧ (writeLocation s v l).errIdx = s.errIdx ∧
    (writeLocation s v l).errVal = s.errVal ∧ (writeLocation s v l).resets = s.resets ∧
    (writeLocation s v l).script = s.script ∧ (writeLocation s v l).reads = s.reads := by
  cases l <;> simp [writeLocation]

/-- What a plain host write does to the three memories. -/
theorem writeLocation_memories (s : State) (v : Byte) (l : Location) :
    ((writeLocation s v l).cg = s.cg ∨ ∃ a : CgAddr, l = .cg a ∧ (writeLocation s v l).cg = s.cg.write a.toNat v) ∧
    ((writeLocation s v l).tb = s.tb ∨ ∃ j : Fin 32, l = .tb j ∧ (writeLocation s v l).tb = s.tb.write j.val v) ∧
    ((writeLocation s v l).px = s.px ∨ ∃ k : Fin 64, l = .px k ∧ (writeLocation s v l).px = s.px.write k.val v) := by
  cases l <;> simp [writeLocation]

/-- Issue under the error lock, any byte but CLRE's and SRST's (60_exceptions.md rule R166). -/
theorem issue_locked {s : State} {w : Byte} (he : s.err = true) (h1 : w ≠ 0xE0) (h2 : w ≠ 0xF0) :
    issue w s = .next s := by
  rw [issue, if_pos he, if_neg h1, if_neg h2]

/-- Issue under the error lock, the two bytes that pass it (30_encoding.md rule R72). -/
theorem issue_clre_locked {s : State} (he : s.err = true) : issue 0xE0 s = exec .clre s := by
  rw [issue, if_pos he, if_pos rfl]

theorem issue_srst_locked {s : State} (he : s.err = true) : issue 0xF0 s = exec .srst s := by
  rw [issue, if_pos he, if_neg (by decide), if_pos rfl]

/-- Issue of a command outside the error lock (30_encoding.md rule R72). -/
theorem issue_command {s : State} {w : Byte} {i : Instr} (he : s.err = false) (h : decode w = .ok i) :
    issue w s = exec i s := by
  rw [issue, if_neg (by simp [he]), h]

/-- Issue of a reserved byte outside the error lock (60_exceptions.md rule R163). -/
theorem issue_reserved {s : State} {w : Byte} {r : Reserved} (he : s.err = false)
    (h : decode w = .error r) : issue w s = .next (raiseError w .illCmd 0 w s) := by
  rw [issue, if_neg (by simp [he]), h]

/-- All that an issue can do. -/
theorem issue_cases (w : Byte) (s : State) :
    (s.err = true ∧ w ≠ 0xE0 ∧ w ≠ 0xF0 ∧ issue w s = .next s) ∨
    (s.err = true ∧ w = 0xE0 ∧ issue w s = exec .clre s) ∨
    (s.err = true ∧ w = 0xF0 ∧ issue w s = exec .srst s) ∨
    (s.err = false ∧ (∃ r, decode w = .error r) ∧ issue w s = .next (raiseError w .illCmd 0 w s)) ∨
    (s.err = false ∧ ∃ i, decode w = .ok i ∧ issue w s = exec i s) := by
  cases he : s.err with
  | true =>
    by_cases h1 : w = 0xE0
    · subst h1; exact .inr (.inl ⟨rfl, rfl, issue_clre_locked he⟩)
    · by_cases h2 : w = 0xF0
      · subst h2; exact .inr (.inr (.inl ⟨rfl, rfl, issue_srst_locked he⟩))
      · exact .inl ⟨rfl, h1, h2, issue_locked he h1 h2⟩
  | false =>
    cases hd : decode w with
    | error r => exact .inr (.inr (.inr (.inl ⟨rfl, ⟨r, rfl⟩, issue_reserved he hd⟩)))
    | ok i => exact .inr (.inr (.inr (.inr ⟨rfl, i, rfl, issue_command he hd⟩)))

/-! One step. -/

theorem step_idle {s : State} (h : s.script = []) : step s = .next s := by rw [step, h]

theorem step_read {s : State} {a : LocalAddr} {rest : List HostEvent} (h : s.script = .read a :: rest) :
    step s = .next { s with script := rest, reads := s.reads ++ [hostRead s a] } := by
  rw [step, h]; rfl

theorem step_write {s : State} {a : LocalAddr} {v : Byte} {rest : List HostEvent}
    (h : s.script = .write a v :: rest) : step s = hostWrite a v { s with script := rest } := by
  rw [step, h]; rfl

theorem step_hardwareReset {s : State} {rest : List HostEvent} (h : s.script = .hardwareReset :: rest) :
    step s = .next (hardwareReset { s with script := rest }) := by
  rw [step, h]; rfl

/-- All that one step can do. -/
theorem step_cases (s : State) :
    (s.script = [] ∧ step s = .next s) ∨
    (∃ a rest, s.script = .read a :: rest ∧
      step s = .next { s with script := rest, reads := s.reads ++ [hostRead s a] }) ∨
    (∃ a v rest, s.script = .write a v :: rest ∧ a ≠ 0x280 ∧
      step s = .next (writeLocation { s with script := rest } v (locate a))) ∨
    (∃ w rest, s.script = .write 0x280 w :: rest ∧ step s = issue w { s with script := rest }) ∨
    (∃ rest, s.script = .hardwareReset :: rest ∧
      step s = .next (hardwareReset { s with script := rest })) := by
  cases h : s.script with
  | nil => exact .inl ⟨rfl, step_idle h⟩
  | cons e rest =>
    cases e with
    | read a => exact .inr (.inl ⟨a, rest, rfl, step_read h⟩)
    | write a v =>
      by_cases ha : a = 0x280
      · subst ha
        exact .inr (.inr (.inr (.inl ⟨v, rest, rfl, step_write h⟩)))
      · exact .inr (.inr (.inl ⟨a, v, rest, rfl, ha, (step_write h).trans (hostWrite_other ha v _)⟩))
    | hardwareReset => exact .inr (.inr (.inr (.inr ⟨rest, rfl, step_hardwareReset h⟩)))

end Sys2Proof.Machine
end

