-- ==== Sys2Proof/Laws/PerInstr.lean ====
section
/-! SUPPORT. Statements about every command, proved command by command. -/

namespace Sys2Proof.Laws

/-- A row of spec/opcode_table.json: its match and its mask. -/
def tableRow : Instr → Byte × Byte
  | .nop => (0x00, 0xFF)
  | .tdec => (0x10, 0xFF)
  | .tenc => (0x20, 0xFF)
  | .pdec _ => (0x30, 0xF0)
  | .sbnk _ => (0x40, 0xF0)
  | .pdcb => (0x50, 0xFF)
  | .clut _ => (0x60, 0xF0)
  | .trgb => (0x70, 0xFF)
  | .frgb => (0x80, 0xFF)
  | .clre => (0xE0, 0xFF)
  | .srst => (0xF0, 0xFF)

/-- A command's byte matches its row of the opcode table under the row's mask. -/
def FitsTableRow.Statement (i : Instr) : Prop := encode i &&& (tableRow i).2 = (tableRow i).1

theorem FitsTableRow.nop : FitsTableRow.Statement .nop := rfl
theorem FitsTableRow.tdec : FitsTableRow.Statement .tdec := rfl
theorem FitsTableRow.tenc : FitsTableRow.Statement .tenc := rfl
theorem FitsTableRow.pdec (b : Nibble) : FitsTableRow.Statement (.pdec b) := by
  revert b; unfold FitsTableRow.Statement; decide
theorem FitsTableRow.sbnk (p : Nibble) : FitsTableRow.Statement (.sbnk p) := by
  revert p; unfold FitsTableRow.Statement; decide
theorem FitsTableRow.pdcb : FitsTableRow.Statement .pdcb := rfl
theorem FitsTableRow.clut (n : Nibble) : FitsTableRow.Statement (.clut n) := by
  revert n; unfold FitsTableRow.Statement; decide
theorem FitsTableRow.trgb : FitsTableRow.Statement .trgb := rfl
theorem FitsTableRow.frgb : FitsTableRow.Statement .frgb := rfl
theorem FitsTableRow.clre : FitsTableRow.Statement .clre := rfl
theorem FitsTableRow.srst : FitsTableRow.Statement .srst := rfl

end Sys2Proof.Laws
end

