-- ==== Sys2Proof/Laws/Run.lean ====
section
/-! SUPPORT. Runs of several steps. -/

namespace Sys2Proof.Machine

@[simp] theorem core_run_zero (s : State) : core.run 0 s = .next s := rfl

/-- A run of any machine goes on from the state that its first step answers. -/
theorem run_succ (M : Host.Core) {s t : M.State} (n : Nat) (h : M.step s = .next t) :
    M.run (n + 1) s = M.run n t := by
  simp only [Host.Core.run, h]

/-- A run of this machine goes on from the state that its first step answers. -/
theorem core_run_succ {s t : State} (n : Nat) (h : step s = .next t) :
    core.run (n + 1) s = core.run n t := run_succ core n h

/-- A run that was not stopped goes on as the rest of it, for any machine. -/
theorem run_add (M : Host.Core) {s t : M.State} (m n : Nat) (h : M.run m s = .next t) :
    M.run (m + n) s = M.run n t := by
  induction m generalizing s with
  | zero =>
    simp only [Host.Core.run, Host.Outcome.next.injEq] at h
    rw [Nat.zero_add, h]
  | succ m ih =>
    rw [Nat.succ_add]
    simp only [Host.Core.run] at h ⊢
    split at h
    · exact ih h
    · cases h
    · cases h

/-- What it is for a next state to be free of an error. -/
@[simp] theorem errorFree_next (t : State) : errorFree (.next t) ↔ t.err = false :=
  ⟨fun ⟨_, h, he⟩ => by cases h; exact he, fun h => ⟨t, rfl, h⟩⟩

/-- A run before its first transaction: the hardware reset. -/
theorem runState_zero (s : State) (transactions : List HostEvent) :
    runState s transactions 0 = .next { hardwareReset s with script := transactions } := rfl

end Sys2Proof.Machine
end

