-- ==== Sys2Proof/Tests/Slice0.lean ====
section
/-! SUPPORT. Tests of single steps, with expected values from 95_test_vectors.md and the rules' own
examples, and for each statement that has hypotheses a concrete state and operands that meet them. -/

namespace Sys2Proof.Tests

open Sys2Proof.Machine

/-- What a test looks at in the next state; none where the machine stops. -/
def after {α : Type} (o : Host.Outcome State Fault Refusal) (f : State → α) : Option α :=
  match o with
  | .next t => some (f t)
  | .fault _ => none
  | .refused _ => none

/-- A memory holding a list of bytes from an index up. -/
def bytesAt (a : Nat) : List Nat → Memory
  | [] => []
  | b :: bs => (a, BitVec.ofNat 8 b) :: bytesAt (a + 1) bs

/-- The state after reset with a whole pixel buffer, all 0 but for some entries. -/
def withPixels (entries : List (Nat × Nat)) : State :=
  { State.reset with
    px := Memory.table fun k : Fin 64 => BitVec.ofNat 8 ((entries.lookup k.val).getD 0) }

/-- The state after reset with a whole packed tile. -/
def withTile (bs : List Nat) : State := { State.reset with tb := bytesAt 0 bs }

/-- A grid from its 64 values. -/
def gridOf (vs : List Nat) : Grid := fun k => BitVec.ofNat 4 (vs.getD k.val 0)

/-- A tile from its 32 values. -/
def tileOf (vs : List Nat) : Tile := fun j => BitVec.ofNat 8 (vs.getD j.val 0)

/-- The state after reset with one host event to perform. -/
def presenting (e : HostEvent) : State := { State.reset with script := [e] }

/-- Bank 9 of program C3 of 95_test_vectors.md, at CG[0x120]. -/
def bankNine : Memory := bytesAt 0x120
  [0x00, 0x00, 0x1F, 0x00, 0xE0, 0x03, 0x00, 0x7C, 0xFF, 0x7F, 0xFF, 0xFF, 0x00, 0x80, 0x34, 0x12,
   0x78, 0x56, 0xBC, 0x2A, 0x10, 0x42, 0x21, 0x04, 0xB5, 0x56, 0x1F, 0x7C, 0xFF, 0x03, 0x18, 0x63]

/-! Decode: bytes written out bit by bit from 30_encoding.md rules R70, R74. -/

theorem test_decode_nop : decodeTableWord 8 0b00000000 = some .nop := by decide
theorem test_decode_tdec : decodeTableWord 8 0b00010000 = some .tdec := by decide
theorem test_decode_tenc : decodeTableWord 8 0b00100000 = some .tenc := by decide
theorem test_decode_pdec : decodeTableWord 8 0b00111010 = some (.pdec 10) := by decide
theorem test_decode_sbnk : decodeTableWord 8 0b01000011 = some (.sbnk 3) := by decide
theorem test_decode_sbnk_out_of_range : decodeTableWord 8 0b01001111 = some (.sbnk 15) := by decide
theorem test_decode_pdcb : decodeTableWord 8 0b01010000 = some .pdcb := by decide
theorem test_decode_clut : decodeTableWord 8 0b01100111 = some (.clut 7) := by decide
theorem test_decode_trgb : decodeTableWord 8 0b01110000 = some .trgb := by decide
theorem test_decode_frgb : decodeTableWord 8 0b10000000 = some .frgb := by decide
theorem test_decode_clre : decodeTableWord 8 0b11100000 = some .clre := by decide
theorem test_decode_srst : decodeTableWord 8 0b11110000 = some .srst := by decide
theorem test_decode_reserved : decodeTableWord 8 0b00000001 = none ∧ decodeTableWord 8 0b10010000 = none ∧
    decodeTableWord 8 0b11011111 = none ∧ decodeTableWord 8 0b11110001 = none := by decide

/-! Well-formedness: an ill-formed term for each check. -/

theorem test_ill_formed_sbnk : Instr.wellFormed (.sbnk 8) = false ∧ Instr.wellFormed (.sbnk 7) = true := by
  decide
theorem test_ill_formed_ldcg_empty : ScriptLine.wellFormed (.ldcg 0 []) = false := by decide
theorem test_ill_formed_ldcg_past_end : ScriptLine.wellFormed (.ldcg 0x1FF [0, 0]) = false ∧
    ScriptLine.wellFormed (.ldcg 0x1FF [0]) = true := by decide

/-! The tile codec (95_test_vectors.md B1). -/

/-- B1.6, layout I. -/
theorem test_decode_tile_interleaved :
    List.ofFn (decodeTile (tileGeometry .interleaved) fun j => BitVec.ofNat 8 j.val) =
      [0, 0, 0, 0xC, 0, 0, 0, 0xA, 0, 0, 0, 0xC, 0, 0, 0xF, 0xA, 0, 0, 0, 0xC, 0, 0xF, 0, 0xA,
       0, 0, 0, 0xC, 0, 0xF, 0xF, 0xA, 0, 0, 0, 0xC, 0xF, 0, 0, 0xA, 0, 0, 0, 0xC, 0xF, 0, 0xF, 0xA,
       0, 0, 0, 0xC, 0xF, 0xF, 0, 0xA, 0, 0, 0, 0xC, 0xF, 0xF, 0xF, 0xA] := by decide +kernel

/-- B1.7, layout S, rows 0 and 1. -/
theorem test_decode_tile_sequential :
    (List.ofFn (decodeTile (tileGeometry .sequential) (tileOf
      [0xFF, 0, 0xFF, 0, 0xFF, 0, 0xFF, 0, 0xFF, 0, 0xFF, 0, 0xFF, 0, 0xFF, 0,
       0x0F, 0xF0, 0x0F, 0xF0, 0x0F, 0xF0, 0x0F, 0xF0, 0x0F, 0xF0, 0x0F, 0xF0, 0x0F, 0xF0, 0x0F, 0xF0]))).take 16 =
      [3, 3, 3, 3, 0xF, 0xF, 0xF, 0xF, 0xC, 0xC, 0xC, 0xC, 0, 0, 0, 0] := by decide +kernel

/-- B1.5, the ring grid, both layouts. -/
def ringGrid : Grid := gridOf
  [0, 0, 1, 1, 1, 1, 0, 0, 0, 1, 2, 2, 2, 2, 1, 0, 1, 2, 3, 3, 3, 3, 2, 1, 1, 2, 3, 4, 4, 3, 2, 1,
   1, 2, 3, 4, 4, 3, 2, 1, 1, 2, 3, 3, 3, 3, 2, 1, 0, 1, 2, 2, 2, 2, 1, 0, 0, 0, 1, 1, 1, 1, 0, 0]

theorem test_encode_tile_interleaved : List.ofFn (encodeTile (tileGeometry .interleaved) ringGrid) =
    [0x3C, 0x00, 0x42, 0x3C, 0xBD, 0x7E, 0xA5, 0x66, 0xA5, 0x66, 0xBD, 0x7E, 0x42, 0x3C, 0x3C, 0x00,
     0, 0, 0, 0, 0, 0, 0x18, 0, 0x18, 0, 0, 0, 0, 0, 0, 0] := by decide +kernel

theorem test_encode_tile_sequential : List.ofFn (encodeTile (tileGeometry .sequential) ringGrid) =
    [0x3C, 0x42, 0xBD, 0xA5, 0xA5, 0xBD, 0x42, 0x3C, 0x00, 0x3C, 0x7E, 0x66, 0x66, 0x7E, 0x3C, 0x00,
     0, 0, 0, 0x18, 0x18, 0, 0, 0, 0, 0, 0, 0, 0, 0, 0, 0] := by decide +kernel

/-- The end of program C1, layout I: TDEC of the ring tile gives PX[27] = 4. Only for
TILE_LAYOUT = INTERLEAVED, which the premise names (00_scope.md rule R4). -/
theorem test_tdec_interleaved (_ : Config.tileLayout = .interleaved) :
    after (exec .tdec (withTile
      [0x3C, 0x00, 0x42, 0x3C, 0xBD, 0x7E, 0xA5, 0x66, 0xA5, 0x66, 0xBD, 0x7E, 0x42, 0x3C, 0x3C, 0x00,
       0, 0, 0, 0, 0, 0, 0x18, 0, 0x18, 0, 0, 0, 0, 0, 0, 0]))
      (fun t => (t.cmd, t.pxByte 27, t.pxByte 0, t.pxByte 18, t.err)) =
      some (0x10, 4, 0, 3, false) := by decide +kernel

/-- B1.8: the lowest index is reported, not the largest value. -/
theorem test_tenc_rejects :
    after (exec .tenc (withPixels [(63, 0xFF), (2, 0x80)]))
      (fun t => [t.cmd, t.statusByte, t.errCode, t.errIdx, t.errVal]) =
      some [0x20, 0x01, 0x01, 0x02, 0x80] := by decide +kernel

/-- Program C2: the clamped encode, layout I. Only for TILE_LAYOUT = INTERLEAVED, which the premise
names (00_scope.md rule R4). -/
theorem test_tenc_clamps_interleaved (_ : Config.tileLayout = .interleaved) :
    after (exec .tenc { withPixels [(5, 3), (10, 0x1F), (20, 0xFF)] with clamp := true })
      (fun t => (t.statusByte, List.ofFn t.tbByte, t.pxByte 10)) =
      some (0x02,
        [0x04, 0x04, 0x20, 0x20, 0x08, 0x08, 0, 0, 0, 0, 0, 0, 0, 0, 0, 0,
         0, 0, 0x20, 0x20, 0x08, 0x08, 0, 0, 0, 0, 0, 0, 0, 0, 0, 0], 0x1F) := by decide +kernel

/-! The palette decoder (95_test_vectors.md B3, program C3). -/

theorem test_caddr : caddr 9 3 = 0x126 ∧ caddr 15 15 = 510 ∧ caddr 8 0 = 256 := by decide

theorem test_pdec :
    after (exec (.pdec 9) { State.reset with cg := bankNine })
      (fun t => (t.cmd, t.bank, t.pal[5], t.pal[15], t.pal[1])) =
      some (0x39, 9, 0x7FFF, 0x6318, 0x001F) := by decide +kernel

theorem test_pdcb :
    after (exec .pdcb { State.reset with cg := bankNine, bank := 9 })
      (fun t => (t.cmd, t.pal.toList)) =
      some (0x50, [0x0000, 0x001F, 0x03E0, 0x7C00, 0x7FFF, 0x7FFF, 0x0000, 0x1234,
        0x5678, 0x2ABC, 0x4210, 0x0421, 0x56B5, 0x7C1F, 0x03FF, 0x6318]) := by decide +kernel

theorem test_sbnk : after (exec (.sbnk 7) State.reset) (fun t => (t.cmd, t.bank, t.err)) =
    some (0x47, 0x0F, false) := by decide

theorem test_sbnk_op_range :
    after (exec (.sbnk 12) { State.reset with bank := 9 })
      (fun t => (t.cmd, t.statusByte, t.errCode, t.errIdx, t.errVal, t.bank)) =
      some (0x4C, 0x01, 0x03, 0x00, 0x0C, 9) := by decide

theorem test_clut : after (exec (.clut 7) { State.reset with cg := bankNine, bank := 9 })
    (fun t => (t.cmd, t.color)) = some (0x67, 0x1234) := by decide

theorem test_clut_drops_bit_15 : after (exec (.clut 6) { State.reset with cg := bankNine, bank := 9 })
    (fun t => t.color) = some 0 := by decide

theorem test_trgb : after (exec .trgb { State.reset with color := 0x1234 })
    (fun t => (t.cmd, t.rgbR, t.rgbG, t.rgbB)) = some (0x70, 160, 136, 32) := by decide

theorem test_frgb : after (exec .frgb { State.reset with rgbR := 255, rgbG := 128, rgbB := 7 })
    (fun t => (t.cmd, t.color)) = some (0x80, 0x021F) := by decide

theorem test_frgb_truncates : after (exec .frgb { State.reset with rgbR := 18, rgbG := 52, rgbB := 86 })
    (fun t => t.color) = some 0x28C2 := by decide

/-! Control commands, the lock and the port (95_test_vectors.md B4, B5). -/

theorem test_nop : after (exec .nop { State.reset with cmd := 0x43 }) (fun t => t.cmd) = some 0x00 := by
  decide

theorem test_clre :
    after (exec .clre
      { State.reset with
        cmd := 0x20, err := true, clamped := true, errCode := 1, errIdx := 10, errVal := 31
        ie := true, bank := 5 })
      (fun t => ([t.cmd, t.statusByte, t.errCode, t.errIdx, t.errVal], t.ie, t.bank)) =
      some ([0xE0, 0, 0, 0, 0], true, 5) := by decide

theorem test_srst :
    after (exec .srst { State.reset with clamp := true, ie := true, bank := 11, cg := [(0x122, 0x1F)] })
      (fun t => (t.cmd, t.ctrlByte, t.bank, t.cgByte 0x122)) = some (0, 0, 0, 0x1F) := by decide

/-- B4 step 2: a reserved byte raises IllCmd. -/
theorem test_ill_cmd :
    after (step (presenting (.write 0x280 0x01)))
      (fun t => (t.cmd, t.statusByte, t.errCode, t.errIdx, t.errVal)) = some (1, 1, 2, 0, 1) := by decide

/-- B4 steps 3 to 5: under the lock SBNK 3 and two reserved bytes change nothing. -/
theorem test_lock_ignores :
    after (issue 0x43 { State.reset with cmd := 1, err := true, errCode := 2, errVal := 1 })
      (fun t => (t.bank, t.cmd, t.errVal)) = some (0, 1, 1) ∧
    after (issue 0xE1 { State.reset with cmd := 1, err := true, errCode := 2, errVal := 1 })
      (fun t => (t.err, t.cmd)) = some (true, 1) := by decide

/-- B4 step 6: a host write works under the lock. -/
theorem test_write_under_lock : after (step { presenting (.write 0x286 0x05) with err := true })
    (fun t => t.bank) = some 5 := by decide

/-- B5: what is read back after a write of 0xFF. -/
theorem test_port_bank : after (hostWrite 0x286 0xFF State.reset) (fun t => hostRead t 0x286) = some 0x0F := by
  decide
theorem test_port_color_hi :
    after (hostWrite 0x289 0xFF State.reset) (fun t => (hostRead t 0x289, hostRead t 0x288)) =
      some (0x7F, 0x00) := by decide
theorem test_port_ctrl : after (hostWrite 0x281 0xFF State.reset) (fun t => hostRead t 0x281) = some 0x03 := by
  decide
theorem test_port_px : after (hostWrite 0x27F 0xC3 State.reset) (fun t => (hostRead t 0x27F, t.pxByte 63)) =
    some (0xC3, 0xC3) := by decide
theorem test_port_pal : hostRead { State.reset with pal := Vector.replicate 16 0x7C1F } 0x22B = 0x7C ∧
    hostRead { State.reset with pal := Vector.replicate 16 0x7C1F } 0x22A = 0x1F := by decide
theorem test_port_reserved : after (hostWrite 0x3FF 0x55 State.reset) (fun t => hostRead t 0x3FF) = some 0 := by
  decide

/-- The host's question: a command byte given to `withFetchWord` is the next step's command. -/
theorem test_fetch_word : after (step (State.reset.withFetchWord 8 0x35)) (fun t => (t.cmd, t.bank)) =
    some (0x35, 5) := by decide

/-! States that meet the hypotheses of the statements, one theorem per statement, with each clause at
an end of its range. -/

theorem witness_StepRunsDecodedCommand :
    (presenting (.write 0x280 0x3F)).script = .write 0x280 0x3F :: [] ∧
    (presenting (.write 0x280 0x3F)).err = false ∧ decode 0x3F = .ok (.pdec 15) := ⟨rfl, rfl, rfl⟩

theorem witness_IssueFollowsLockAndDecode :
    ({ State.reset with err := true } : State).err = true ∧ (0x10 : Byte) ≠ 0xE0 ∧ (0x10 : Byte) ≠ 0xF0 ∧
    State.reset.err = false ∧ decode 0x00 = .ok .nop ∧ decode 0xFF = .error (.operandNotZero 15 15) :=
  ⟨rfl, by decide, by decide, rfl, rfl, rfl⟩

theorem witness_LockedCommandIgnored :
    ({ presenting (.write 0x280 0xE1) with err := true } : State).script = .write 0x280 0xE1 :: [] ∧
    ({ presenting (.write 0x280 0xE1) with err := true } : State).err = true ∧
    (0xE1 : Byte) ≠ 0xE0 ∧ (0xE1 : Byte) ≠ 0xF0 := ⟨rfl, rfl, by decide, by decide⟩

/-- Two different tiles that agree on the four bits of pixel (0, 0), in either layout, and two different
grids that agree on bit 0 of row 0. -/
theorem witness_LanesAreIndependent (L : TileLayout) :
    (∀ i : Fin 4, (tileOf [] ((tileGeometry L).off i 0)).getLsbD ((tileGeometry L).bitpos 0) =
      (tileOf [1] ((tileGeometry L).off i 0)).getLsbD ((tileGeometry L).bitpos 0)) ∧
    tileOf [] 0 ≠ tileOf [1] 0 ∧
    (∀ c : Fin 8, (gridOf [] (pixelIndex 0 c)).getLsbD 0 = (gridOf [2] (pixelIndex 0 c)).getLsbD 0) ∧
    gridOf [] 0 ≠ gridOf [2] 0 := by
  cases L <;> decide

theorem witness_TencEncodesGrid_in_range : ∀ k, ((withPixels [(63, 15)]).pxByte k).toNat ≤ 15 := by
  decide +kernel

theorem witness_TencEncodesGrid_clamp : ({ State.reset with clamp := true } : State).clamp = true := rfl

theorem witness_TencRejectsLeastOutOfRange :
    (withPixels [(63, 16)]).clamp = false ∧ 15 < ((withPixels [(63, 16)]).pxByte 63).toNat ∧
    ∀ j < (63 : Fin 64), ((withPixels [(63, 16)]).pxByte j).toNat ≤ 15 := by decide +kernel

theorem witness_TdecThenTencKeepsTile : State.reset.err = false := rfl

theorem witness_TencThenTdecClampsPixels :
    (withPixels [(10, 15)]).err = false ∧ ∀ k, ((withPixels [(10, 15)]).pxByte k).toNat ≤ 15 := by
  decide +kernel

/-- The identity meets the round-trip law; the grid of zeros encodes, in either layout, to the tile of
zeros, which meets the premise on `u`. -/
theorem witness_CompressedTileComesBack :
    RoundTrip id some ∧ (∀ k, ((withPixels []).pxByte k).toNat ≤ 15) ∧
    after (exec .tenc (withPixels [])) (fun t => decide
      (some t.tileBytes = some (withTile (List.replicate 32 0)).tileBytes)) = some true :=
  ⟨fun _ => rfl, by decide +kernel, by decide +kernel⟩

/-- A provider that meets the law, an output just within and just beyond the bound, and bytes that a
provider gives nothing for. -/
theorem witness_DecompressionIsBounded :
    RoundTrip id some ∧ ([1, 2] : Bytes).length ≤ 2 ∧ 1 < ([1, 2] : Bytes).length ∧
    (fun _ : Bytes => (none : Option Bytes)) [1] = none := ⟨fun _ => rfl, by decide, by decide, rfl⟩

theorem witness_NopWritesCmdOnly :
    ({ State.reset with err := true } : State).err = true ∧ State.reset.err = false := ⟨rfl, rfl⟩

theorem witness_SbnkMapsPaletteToSpriteBank :
    (0 : Nibble).toNat ≤ 7 ∧ (7 : Nibble).toNat ≤ 7 ∧ 7 < (8 : Nibble).toNat ∧ 7 < (15 : Nibble).toNat := by
  decide

theorem witness_SpritePaletteScript :
    ({ State.reset with script := [.write 0x280 0x47, .write 0x280 0x50] } : State).script =
      (ScriptLine.spal 7).expand ++ [] ∧
    ({ State.reset with script := [.write 0x280 0x48, .write 0x280 0x50] } : State).script =
      (ScriptLine.spal 8).expand ++ [] ∧ State.reset.err = false := by decide

theorem witness_HostReadTable : (presenting (.read 0x3FF)).script = .read 0x3FF :: [] ∧
    0x28D ≤ (0x28D : LocalAddr).toNat ∧ 0x28D ≤ (0x3FF : LocalAddr).toNat := by decide

theorem witness_HostWriteTable :
    (0x220 ≤ (0x220 : LocalAddr).toNat ∧ (0x23F : LocalAddr).toNat ≤ 0x23F) ∧
    (0x282 ≤ (0x282 : LocalAddr).toNat ∧ (0x285 : LocalAddr).toNat ≤ 0x285) ∧
    0x28D ≤ (0x28D : LocalAddr).toNat := by decide

theorem witness_HostWriteThenRead : (0x27F : LocalAddr) ≠ 0x280 ∧ (0x281 : LocalAddr) ≠ 0x280 := by decide

theorem witness_ColorTableLoads :
    (List.replicate 511 0x5A : Bytes).length ≠ 512 ∧ (List.replicate 513 0x5A : Bytes).length ≠ 512 ∧
    (List.replicate 512 0x5A : Bytes).length = 512 :=
  ⟨List.length_replicate.trans_ne (by decide), List.length_replicate.trans_ne (by decide),
    List.length_replicate⟩

theorem witness_SignalsPerformTransactions :
    (Pins.mk true true true 0 0).rst = true ∧
    ((Pins.mk false true true 0x280 0).rst = false ∧ (Pins.mk false true true 0x280 0).sel = true ∧
      (Pins.mk false true true 0x280 0).wr = true) ∧
    ((Pins.mk false false true 0 0).rst = false ∧ (Pins.mk false false true 0 0).sel = false) ∧
    ((Pins.mk true true false 0x3FF 0).sel = true ∧ (Pins.mk true true false 0x3FF 0).wr = false) := by
  decide

theorem witness_HardwareResetState :
    ({ presenting .hardwareReset with err := true, bank := 5 } : State).script = .hardwareReset :: [] := rfl

/-- A state under the error lock that meets the invariant, and its step. -/
theorem witness_StepKeepsInvariant :
    State.Inv
      { State.reset with
        cg := [(0, 1), (511, 2)], cmd := 0x20, err := true, errCode := 1, errIdx := 63, errVal := 16
        script := [.write 0x280 0xE0] } ∧
    ∃ t, step
      { State.reset with
        cg := [(0, 1), (511, 2)], cmd := 0x20, err := true, errCode := 1, errIdx := 63, errVal := 16
        script := [.write 0x280 0xE0] } = .next t :=
  ⟨⟨by decide, by decide, by decide, by decide, by decide, by decide, fun h => Bool.noConfusion h,
    fun _ => .inl (by decide)⟩, ⟨_, rfl⟩⟩

theorem witness_ErrorsArePrecise :
    ∃ t, (presenting (.write 0x280 0x93)).err = false ∧
      step (presenting (.write 0x280 0x93)) = .next t ∧ t.err = true := ⟨_, rfl, rfl, rfl⟩

theorem witness_OnlyTencAndSbnkRaise :
    State.reset.err = false ∧ after (exec (.sbnk 8) State.reset) (fun t => t.err) = some true ∧
    after (exec .tenc (withPixels [(63, 16)])) (fun t => t.err) = some true := by decide +kernel

theorem witness_ErrorLockEndsOnlyByAcknowledge :
    ∃ t, ({ presenting (.write 0x280 0xE0) with err := true } : State).err = true ∧
      step { presenting (.write 0x280 0xE0) with err := true } = .next t ∧ t.err = false :=
  ⟨_, rfl, rfl, rfl⟩

/-- The clauses on the error registers at their ends: an SBNK at its greatest legal operand, and a TENC
that does not raise. -/
theorem witness_CommandsWriteOnlyTheirState :
    (∃ t, exec (.clut 15) State.reset = .next t) ∧
    (∃ t, exec (.sbnk 7) State.reset = .next t) ∧ (∀ p, Instr.sbnk 7 = .sbnk p → p.toNat ≤ 7) ∧
    (∃ t, exec .tenc { withPixels [(63, 16)] with clamp := true } = .next t) ∧
    (withPixels [(63, 15)]).clamp = false ∧ (∀ k, ((withPixels [(63, 15)]).pxByte k).toNat ≤ 15) :=
  ⟨⟨_, rfl⟩, ⟨_, rfl⟩, fun _ h => by cases h; decide, ⟨_, execTenc_encode (.inr rfl)⟩, rfl,
    by decide +kernel⟩

theorem witness_PaletteChangesOnlyByDecodeOrReset :
    ∃ t, step { presenting (.write 0x280 0xF0) with pal := Vector.replicate 16 1 } = .next t ∧
      t.pal ≠ (Vector.replicate 16 1 : Vector Color15 16) := ⟨_, rfl, by decide⟩

theorem witness_ColorTableChangesOnlyByHost :
    ∃ t, step { presenting (.write 0x1FF 0x02) with cg := [(511, 1)] } = .next t ∧
      t.cgByte 511 ≠ State.cgByte { presenting (.write 0x1FF 0x02) with cg := [(511, 1)] } 511 :=
  ⟨_, rfl, by decide⟩

theorem witness_RunPerformsItsTransactions : 1 ≤ [HostEvent.read 0x282, .write 0x280 0x10].length ∧
    2 ≤ [HostEvent.read 0x282, .write 0x280 0x10].length := by decide

theorem witness_NoSuccessAfterUnacknowledgedError :
    HostEvent.hardwareReset ∉ [HostEvent.write 0x280 0x47, .read 0x282] ∧
    HostEvent.write 0x280 0xE0 ∉ [HostEvent.write 0x280 0x47, .read 0x282] ∧
    HostEvent.write 0x280 0xF0 ∉ [HostEvent.write 0x280 0x47, .read 0x282] ∧
    errorFree (runState State.reset [.write 0x280 0x47, .read 0x282] 2) :=
  ⟨by decide, by decide, by decide, _, rfl, rfl⟩

/-- An error that CLRE acknowledges: the final state has ERR = 0, and the run is no success for a claim
that cares about the state in between (70_reset_and_hazards.md rule R204). -/
theorem test_acknowledged_error_is_no_success :
    errorFree (runState State.reset [.write 0x280 0x01, .write 0x280 0xE0] 2) ∧
    ¬ RunSucceeded State.reset [.write 0x280 0x01, .write 0x280 0xE0] fun _ => True := by
  refine ⟨⟨_, rfl, rfl⟩, fun h => ?_⟩
  obtain ⟨t, ht, he⟩ := h.intermediate 1 (by decide) trivial
  cases ht
  cases he

end Sys2Proof.Tests
end

section
/-! PROOF. The tile layouts: where each puts row `r` of bitplane `i`, and that a geometry's `off` is a
bijection onto the 32 bytes (00_scope.md rule R4). -/

namespace Sys2Proof.Machine

@[simp] theorem tileGeometry_interleaved_off_val (i : Fin 4) (r : Fin 8) :
    ((tileGeometry .interleaved).off i r).val = 16 * (i.val / 2) + 2 * r.val + i.val % 2 := rfl

@[simp] theorem tileGeometry_sequential_off_val (i : Fin 4) (r : Fin 8) :
    ((tileGeometry .sequential).off i r).val = 8 * i.val + r.val := rfl

/-- The two-sided inverse is the pair of `plane` and `row` that every geometry carries. -/
theorem TileGeometry.off_bijective (geo : TileGeometry) :
    Function.Bijective fun p : Fin 4 × Fin 8 => geo.off p.1 p.2 := by
  refine Function.bijective_iff_has_inverse.mpr ⟨fun j => (geo.plane j, geo.row j), ?left, ?right⟩
  case left =>
    rintro ⟨i, r⟩
    exact Prod.ext (geo.plane_off i r) (geo.row_off i r)
  case right => exact geo.off_plane_row

/-- Settles O8: the formulas are the layouts' equations, and bijectivity holds of every geometry. -/
theorem tileLayoutFormulas : Obligations.TileLayoutFormulas :=
  ⟨fun i r => ⟨tileGeometry_interleaved_off_val i r, tileGeometry_sequential_off_val i r⟩,
    fun L => (tileGeometry L).off_bijective⟩

end Sys2Proof.Machine
end

section
/-! PROOF. What a command does to the memories and to the error registers, said once: every command
raises one row of the error table, acknowledges an error, resets softly, or completes (30_encoding.md
rule R72, 60_exceptions.md rule R160). -/

namespace Sys2Proof.Machine

/-- Every command's byte decodes to that command (30_encoding.md rules R70 to R74). -/
@[simp] theorem decode_encode (i : Instr) : decode (encode i) = .ok i := by
  cases i with
  | pdec b => revert b; decide
  | sbnk p => revert p; decide
  | clut n => revert n; decide
  | _ => rfl

theorem encode_sbnk_toNat (p : Nibble) : (encode (.sbnk p)).toNat = 0x40 + p.toNat := by
  revert p; decide

/-- TENC's error is the PixRange row: an entry's index and a value above 15. -/
theorem errorRecorded_pixRange {s : State} {k : Fin 64} (h : firstOor s.pxByte = some k) :
    (raiseError (encode .tenc) .pixRange (BitVec.ofNat 8 k.val) (s.pxByte k) s).errorRecorded := by
  obtain ⟨hval, -⟩ := (firstOor_eq_some _ _).mp h
  have hidx : (BitVec.ofNat 8 k.val).toNat < 64 := by
    rw [BitVec.toNat_ofNat]
    omega
  exact .inl ⟨rfl, rfl, hidx, hval⟩

/-- The error of a reserved byte is the IllCmd row. -/
theorem errorRecorded_illCmd {w : Byte} (h : ∃ r, decode w = .error r) (s : State) :
    (raiseError w .illCmd 0 w s).errorRecorded :=
  .inr (.inl ⟨rfl, rfl, rfl, h⟩)

/-- SBNK's error is the OpRange row: the operand in ERRVAL and in CMD. -/
theorem errorRecorded_opRange {p : Nibble} (h : 7 < p.toNat) (s : State) :
    (raiseError (encode (.sbnk p)) .opRange 0 (p.setWidth 8) s).errorRecorded := by
  have hval : (p.setWidth 8 : Byte).toNat = p.toNat := BitVec.toNat_setWidth_of_le (by decide)
  refine .inr (.inr ⟨rfl, rfl, ?_, ?_, ?_⟩)
  · rw [raiseError_errVal, hval]; exact h
  · rw [raiseError_errVal, hval]; omega
  · rw [raiseError_cmd, raiseError_errVal, hval, encode_sbnk_toNat]

/-- The effects a command can have, as far as CMD, the error registers and the memories go. -/
inductive ExecEffect (i : Instr) (s : State) : State → Prop where
  /-- The error entry, with a row of the error table (60_exceptions.md rule R164). -/
  | raised (e : CmdError) (idx val : Byte)
      (row : (raiseError (encode i) e idx val s).errorRecorded) :
      ExecEffect i s (raiseError (encode i) e idx val s)
  /-- CLRE (42_control.md rule R142). -/
  | cleared : ExecEffect i s { clearErrors s with cmd := encode .clre }
  /-- SRST (42_control.md rule R143). -/
  | restarted : ExecEffect i s (softReset s)
  /-- Completion: CG, CTRL and the error registers are kept, and of TB and PX each is kept or written
  whole. -/
  | completed {t : State}
      (frame : t = { s with
        cmd := encode i, tb := t.tb, px := t.px, pal := t.pal, bank := t.bank, color := t.color
        rgbR := t.rgbR, rgbG := t.rgbG, rgbB := t.rgbB, clamped := t.clamped })
      (tb : t.tb = s.tb ∨ ∃ f : Fin 32 → Byte, t.tb = Memory.table f)
      (px : t.px = s.px ∨ ∃ f : Fin 64 → Byte, t.px = Memory.table f) :
      ExecEffect i s t

/-- All that a command can do. -/
theorem exec_effect (i : Instr) (s : State) : ∃ t, exec i s = .next t ∧ ExecEffect i s t := by
  cases i with
  | nop => exact ⟨_, execNop_eq s, .completed rfl (.inl rfl) (.inl rfl)⟩
  | tdec => exact ⟨_, execTdec_eq s, .completed rfl (.inl rfl)
      (.inr ⟨fun k => (decodeTile machineGeometry s.tbByte k).setWidth 8, rfl⟩)⟩
  | tenc =>
    obtain ⟨k, hk, -, hx⟩ | ⟨-, hx⟩ := execTenc_cases s
    · exact ⟨_, hx, .raised _ _ _ (errorRecorded_pixRange hk)⟩
    · exact ⟨_, hx, .completed rfl (.inr ⟨_, rfl⟩) (.inl rfl)⟩
  | pdec b => exact ⟨_, execPdec_eq b s, .completed rfl (.inl rfl) (.inl rfl)⟩
  | sbnk p =>
    obtain hp | hp := Nat.lt_or_ge 7 p.toNat
    · exact ⟨_, execSbnk_illegal hp s, .raised _ _ _ (errorRecorded_opRange hp s)⟩
    · exact ⟨_, execSbnk_legal hp s, .completed rfl (.inl rfl) (.inl rfl)⟩
  | pdcb => exact ⟨_, execPdcb_eq s, .completed rfl (.inl rfl) (.inl rfl)⟩
  | clut n => exact ⟨_, execClut_eq n s, .completed rfl (.inl rfl) (.inl rfl)⟩
  | trgb => exact ⟨_, execTrgb_eq s, .completed rfl (.inl rfl) (.inl rfl)⟩
  | frgb => exact ⟨_, execFrgb_eq s, .completed rfl (.inl rfl) (.inl rfl)⟩
  | clre => exact ⟨_, execClre_eq s, .cleared⟩
  | srst => exact ⟨_, execSrst_eq s, .restarted⟩

theorem execEffect_of_exec {i : Instr} {s t : State} (h : exec i s = .next t) :
    ExecEffect i s t := by
  obtain ⟨u, hu, effect⟩ := exec_effect i s
  cases hu.symm.trans h
  exact effect

/-- No command writes CG or counts as a reset (10_state.md rule R14). -/
theorem exec_keeps_cg {i : Instr} {s t : State} (h : exec i s = .next t) :
    t.cg = s.cg ∧ t.resets = s.resets := by
  cases execEffect_of_exec h with
  | completed frame _ _ => rw [frame]; exact ⟨rfl, rfl⟩
  | _ => exact ⟨rfl, rfl⟩

/-- No issued byte writes CG or counts as a reset. -/
theorem issue_keeps_cg {w : Byte} {s t : State} (h : issue w s = .next t) :
    t.cg = s.cg ∧ t.resets = s.resets := by
  obtain ⟨-, -, -, hi⟩ | ⟨-, -, hi⟩ | ⟨-, -, hi⟩ | ⟨-, -, hi⟩ | ⟨-, i, -, hi⟩ := issue_cases w s
  · cases hi.symm.trans h; exact ⟨rfl, rfl⟩
  · exact exec_keeps_cg (hi.symm.trans h)
  · exact exec_keeps_cg (hi.symm.trans h)
  · cases hi.symm.trans h; exact ⟨rfl, rfl⟩
  · exact exec_keeps_cg (hi.symm.trans h)

end Sys2Proof.Machine
end

section
/-! PROOF. The invariant of the state: it splits into the form of the memories and the agreement of the
error registers with CMD, and each part holds after reset and over every step (10_state.md rules R19,
R22 to R24, 60_exceptions.md rule R160). -/

namespace Sys2Proof.Machine

/-- A memory of `n` bytes in canonical form. -/
def Memory.Canonical (n : Nat) (m : Memory) : Prop := m.wf ∧ m.below n

theorem Memory.canonical_nil (n : Nat) : Memory.Canonical n [] :=
  ⟨Memory.nil_wf, fun _ hc => nomatch hc⟩

theorem Memory.canonical_table {n : Nat} (f : Fin n → Byte) : (Memory.table f).Canonical n :=
  ⟨Memory.table_wf f, Memory.table_below f⟩

theorem Memory.Canonical.write {n a : Nat} {m : Memory} (h : m.Canonical n) (ha : a < n) (v : Byte) :
    (m.write a v).Canonical n := by
  obtain ⟨hwf, hbelow⟩ := h
  exact ⟨Memory.write_wf a v hwf, Memory.write_below v ha hbelow⟩

/-- The part of the invariant about the memories. -/
def State.MemoriesCanonical (s : State) : Prop :=
  s.cg.Canonical 512 ∧ s.tb.Canonical 32 ∧ s.px.Canonical 64

/-- The part of the invariant about CMD and the error registers. -/
def State.ErrorsConsistent (s : State) : Prop :=
  (s.err = false → s.errCode = 0 ∧ s.errIdx = 0 ∧ s.errVal = 0 ∧ ∃ i, decode s.cmd = .ok i) ∧
  (s.err = true → s.errorRecorded)

theorem State.inv_iff (s : State) : s.Inv ↔ s.MemoriesCanonical ∧ s.ErrorsConsistent := by
  constructor
  · rintro ⟨cgWf, cgBelow, tbWf, tbBelow, pxWf, pxBelow, noError, error⟩
    exact ⟨⟨⟨cgWf, cgBelow⟩, ⟨tbWf, tbBelow⟩, ⟨pxWf, pxBelow⟩⟩, noError, error⟩
  · rintro ⟨⟨⟨cgWf, cgBelow⟩, ⟨tbWf, tbBelow⟩, ⟨pxWf, pxBelow⟩⟩, noError, error⟩
    exact ⟨cgWf, cgBelow, tbWf, tbBelow, pxWf, pxBelow, noError, error⟩

/-! The memories. -/

theorem reset_memoriesCanonical : State.reset.MemoriesCanonical :=
  ⟨Memory.canonical_nil 512, Memory.canonical_nil 32, Memory.canonical_nil 64⟩

theorem hardwareReset_memoriesCanonical (s : State) : (hardwareReset s).MemoriesCanonical :=
  reset_memoriesCanonical

theorem writeLocation_keeps_memories {s : State} (h : s.MemoriesCanonical) (v : Byte) (l : Location) :
    (writeLocation s v l).MemoriesCanonical := by
  obtain ⟨hcg, htb, hpx⟩ := h
  obtain ⟨cgCase, tbCase, pxCase⟩ := writeLocation_memories s v l
  refine ⟨?_, ?_, ?_⟩
  · obtain e | ⟨a, -, e⟩ := cgCase <;> rw [e]
    · exact hcg
    · exact hcg.write a.isLt v
  · obtain e | ⟨j, -, e⟩ := tbCase <;> rw [e]
    · exact htb
    · exact htb.write j.isLt v
  · obtain e | ⟨k, -, e⟩ := pxCase <;> rw [e]
    · exact hpx
    · exact hpx.write k.isLt v

/-- A memory that a command keeps or writes whole stays canonical. -/
theorem Memory.Canonical.of_kept_or_table {n : Nat} {m m' : Memory} (h : m.Canonical n)
    (kept_or_table : m' = m ∨ ∃ f : Fin n → Byte, m' = Memory.table f) : m'.Canonical n := by
  obtain rfl | ⟨f, rfl⟩ := kept_or_table
  · exact h
  · exact Memory.canonical_table f

theorem exec_keeps_memories {i : Instr} {s t : State} (h : s.MemoriesCanonical)
    (hx : exec i s = .next t) : t.MemoriesCanonical := by
  obtain ⟨hcg, htb, hpx⟩ := h
  cases execEffect_of_exec hx with
  | completed _ tb px =>
    obtain ⟨cg, -⟩ := exec_keeps_cg hx
    exact ⟨cg ▸ hcg, htb.of_kept_or_table tb, hpx.of_kept_or_table px⟩
  | _ => exact ⟨hcg, htb, hpx⟩

theorem issue_keeps_memories {w : Byte} {s t : State} (h : s.MemoriesCanonical)
    (hx : issue w s = .next t) : t.MemoriesCanonical := by
  obtain ⟨-, -, -, hi⟩ | ⟨-, -, hi⟩ | ⟨-, -, hi⟩ | ⟨-, -, hi⟩ | ⟨-, i, -, hi⟩ := issue_cases w s
  · cases hi.symm.trans hx; exact h
  · exact exec_keeps_memories h (hi.symm.trans hx)
  · exact exec_keeps_memories h (hi.symm.trans hx)
  · cases hi.symm.trans hx; exact h
  · exact exec_keeps_memories h (hi.symm.trans hx)

theorem step_keeps_memories {s t : State} (h : s.MemoriesCanonical) (hs : step s = .next t) :
    t.MemoriesCanonical := by
  obtain ⟨-, e⟩ | ⟨a, rest, -, e⟩ | ⟨a, v, rest, -, -, e⟩ | ⟨w, rest, -, e⟩ | ⟨rest, -, e⟩ :=
    step_cases s
  · cases e.symm.trans hs; exact h
  · cases e.symm.trans hs; exact h
  · cases e.symm.trans hs; exact writeLocation_keeps_memories (s := { s with script := rest }) h v _
  · exact issue_keeps_memories (s := { s with script := rest }) h (e.symm.trans hs)
  · cases e.symm.trans hs; exact hardwareReset_memoriesCanonical _

/-! CMD and the error registers. -/

theorem State.errorsConsistent_of_recorded {s : State} (he : s.err = true) (row : s.errorRecorded) :
    s.ErrorsConsistent :=
  ⟨fun h => absurd (he.symm.trans h) (by decide), fun _ => row⟩

theorem State.errorsConsistent_of_zero {s : State} {i : Instr} (he : s.err = false)
    (hcode : s.errCode = 0) (hidx : s.errIdx = 0) (hval : s.errVal = 0) (hcmd : decode s.cmd = .ok i) :
    s.ErrorsConsistent :=
  ⟨fun _ => ⟨hcode, hidx, hval, i, hcmd⟩, fun h => absurd (he.symm.trans h) (by decide)⟩

theorem cleared_errorsConsistent (s : State) :
    State.ErrorsConsistent { clearErrors s with cmd := encode .clre } :=
  State.errorsConsistent_of_zero rfl rfl rfl rfl (decode_encode .clre)

/-- The reset value 0x00 of CMD is NOP's byte. -/
theorem reset_errorsConsistent : State.reset.ErrorsConsistent :=
  State.errorsConsistent_of_zero rfl rfl rfl rfl (decode_encode .nop)

theorem softReset_errorsConsistent (s : State) : (softReset s).ErrorsConsistent :=
  reset_errorsConsistent

theorem hardwareReset_errorsConsistent (s : State) : (hardwareReset s).ErrorsConsistent :=
  reset_errorsConsistent

theorem writeLocation_keeps_errors {s : State} (h : s.ErrorsConsistent) (v : Byte) (l : Location) :
    (writeLocation s v l).ErrorsConsistent := by
  obtain ⟨-, cmd, err, -, errCode, errIdx, errVal, -⟩ := writeLocation_frame s v l
  unfold State.ErrorsConsistent State.errorRecorded
  rw [cmd, err, errCode, errIdx, errVal]
  exact h

theorem exec_keeps_errors {i : Instr} {s t : State} (he : s.err = false) (h : s.ErrorsConsistent)
    (hx : exec i s = .next t) : t.ErrorsConsistent := by
  cases execEffect_of_exec hx with
  | raised e idx val row => exact State.errorsConsistent_of_recorded rfl row
  | cleared => exact cleared_errorsConsistent s
  | restarted => exact softReset_errorsConsistent s
  | completed frame _ _ =>
    obtain ⟨noError, -⟩ := h
    obtain ⟨hcode, hidx, hval, -⟩ := noError he
    rw [frame]
    exact State.errorsConsistent_of_zero he hcode hidx hval (decode_encode i)

theorem issue_keeps_errors {w : Byte} {s t : State} (h : s.ErrorsConsistent)
    (hx : issue w s = .next t) : t.ErrorsConsistent := by
  obtain ⟨-, -, -, hi⟩ | ⟨-, -, hi⟩ | ⟨-, -, hi⟩ | ⟨-, reserved, hi⟩ | ⟨he, i, -, hi⟩ :=
    issue_cases w s
  · cases hi.symm.trans hx; exact h
  · cases (hi.trans (execClre_eq s)).symm.trans hx; exact cleared_errorsConsistent s
  · cases (hi.trans (execSrst_eq s)).symm.trans hx; exact softReset_errorsConsistent s
  · cases hi.symm.trans hx
    exact State.errorsConsistent_of_recorded rfl (errorRecorded_illCmd reserved s)
  · exact exec_keeps_errors he h (hi.symm.trans hx)

theorem step_keeps_errors {s t : State} (h : s.ErrorsConsistent) (hs : step s = .next t) :
    t.ErrorsConsistent := by
  obtain ⟨-, e⟩ | ⟨a, rest, -, e⟩ | ⟨a, v, rest, -, -, e⟩ | ⟨w, rest, -, e⟩ | ⟨rest, -, e⟩ :=
    step_cases s
  · cases e.symm.trans hs; exact h
  · cases e.symm.trans hs; exact h
  · cases e.symm.trans hs; exact writeLocation_keeps_errors (s := { s with script := rest }) h v _
  · exact issue_keeps_errors (s := { s with script := rest }) h (e.symm.trans hs)
  · cases e.symm.trans hs; exact hardwareReset_errorsConsistent _

/-- Settles O41: each part of the invariant is kept by every event of the host. -/
theorem stepKeepsInvariant : Obligations.StepKeepsInvariant := fun s t h hs => by
  obtain ⟨memories, errors⟩ := s.inv_iff.mp h
  exact t.inv_iff.mpr ⟨step_keeps_memories memories hs, step_keeps_errors errors hs⟩

/-- Settles O40: nothing is listed in a memory, and CMD holds NOP's byte. -/
theorem invariantHoldsAtReset : Obligations.InvariantHoldsAtReset :=
  State.reset.inv_iff.mpr ⟨reset_memoriesCanonical, reset_errorsConsistent⟩

end Sys2Proof.Machine
end

section
/-! PROOF. The colour table is the host's alone (10_state.md rule R14): the reads of CG, and the only
events that reach it. -/

namespace Sys2Proof.Machine

theorem registerAt_ne_cg (n : Nat) (a : CgAddr) : registerAt n ≠ .cg a := by
  unfold registerAt
  split <;> nofun

/-- Only a local address below 0x200 names a byte of CG, and it is that byte's own address. -/
theorem eq_of_locate_eq_cg {l : LocalAddr} {a : CgAddr} (h : locate l = .cg a) :
    l = BitVec.ofNat 10 a.toNat := by
  unfold locate at h
  split_ifs at h with hl
  · cases h
    apply BitVec.eq_of_toNat_eq
    rw [BitVec.toNat_setWidth, BitVec.toNat_ofNat]
    omega
  · exact absurd h (registerAt_ne_cg _ _)

theorem State.cgByte_congr {s t : State} (hcg : t.cg = s.cg) (hresets : t.resets = s.resets)
    (a : CgAddr) : t.cgByte a = s.cgByte a := by
  rw [State.cgByte, hcg, hresets, State.cgByte]

theorem State.cgByte_of_write_same {s t : State} {a : CgAddr} {v : Byte}
    (hcg : t.cg = s.cg.write a.toNat v) : t.cgByte a = v := by
  simp [State.cgByte, hcg]

theorem State.cgByte_of_write_other {s t : State} {a b : CgAddr} {v : Byte}
    (hcg : t.cg = s.cg.write b.toNat v) (hresets : t.resets = s.resets) (hne : a ≠ b) :
    t.cgByte a = s.cgByte a := by
  have hne' : a.toNat ≠ b.toNat := fun e => hne (BitVec.eq_of_toNat_eq e)
  rw [State.cgByte, hcg, Memory.read?_write_other _ v hne', hresets, State.cgByte]

/-- A plain host write that changes what a byte of CG reads as is at that byte, with the byte it then
reads as. -/
theorem writeLocation_changes_cgByte {s : State} {v : Byte} {l : Location} {a : CgAddr}
    (h : (writeLocation s v l).cgByte a ≠ s.cgByte a) :
    l = .cg a ∧ (writeLocation s v l).cgByte a = v := by
  obtain ⟨-, -, -, -, -, -, -, hresets, -⟩ := writeLocation_frame s v l
  obtain ⟨hcg | ⟨b, hl, hcg⟩, -⟩ := writeLocation_memories s v l
  · exact absurd (State.cgByte_congr hcg hresets a) h
  · obtain rfl | hne := eq_or_ne a b
    · exact ⟨hl, State.cgByte_of_write_same hcg⟩
    · exact absurd (State.cgByte_of_write_other hcg hresets hne) h

/-- Settles O47: a read and a command keep CG, so a plain write at the byte's location or a hardware
reset is left. -/
theorem colorTableChangesOnlyByHost : Obligations.ColorTableChangesOnlyByHost := by
  intro s t a hs hchanged
  obtain ⟨-, e⟩ | ⟨l, rest, -, e⟩ | ⟨l, v, rest, hscript, -, e⟩ | ⟨w, rest, -, e⟩ | ⟨rest, hscript, -⟩ :=
    step_cases s
  · cases e.symm.trans hs
    exact absurd rfl hchanged
  · cases e.symm.trans hs
    exact absurd rfl hchanged
  · cases e.symm.trans hs
    obtain ⟨hl, hv⟩ := writeLocation_changes_cgByte (s := { s with script := rest }) hchanged
    exact ⟨rest, .inr ⟨v, eq_of_locate_eq_cg hl ▸ hscript, hv⟩⟩
  · obtain ⟨hcg, hresets⟩ := issue_keeps_cg (e.symm.trans hs)
    exact absurd (State.cgByte_congr (s := s) hcg hresets a) hchanged
  · exact ⟨rest, .inl hscript⟩

end Sys2Proof.Machine
end

section
/-! PROOF. The values that a hardware reset leaves (10_state.md rule R29, 70_reset_and_hazards.md rules
R190, R191). -/

namespace Sys2Proof.Machine

theorem reset_pal_getElem (k : Fin 16) : State.reset.pal[k] = 0 := by
  simp [State.reset]

/-- After a hardware reset the bytes of the memories are the free bytes of the new reset count. -/
theorem hardwareReset_cgByte (s : State) (a : CgAddr) :
    (hardwareReset s).cgByte a = Config.resetByte (s.resets + 1) a.toNat := rfl

theorem hardwareReset_tbByte (s : State) (j : Fin 32) :
    (hardwareReset s).tbByte j = Config.resetByte (s.resets + 1) (0x200 + j.val) := rfl

theorem hardwareReset_pxByte (s : State) (k : Fin 64) :
    (hardwareReset s).pxByte k = Config.resetByte (s.resets + 1) (0x240 + k.val) := rfl

/-- Settles O38: the step is `hardwareReset`, which takes its registers from the state after reset. -/
theorem hardwareResetState : Obligations.HardwareResetState := by
  intro s rest h
  refine ⟨_, step_hardwareReset h, rfl, rfl, rfl, rfl, rfl, rfl, rfl, rfl, rfl, rfl, rfl, rfl, rfl, rfl,
    ?pal, rfl, ?cg, ?tb, ?px⟩
  case pal => exact reset_pal_getElem
  case cg => exact hardwareReset_cgByte _
  case tb => exact hardwareReset_tbByte _
  case px => exact hardwareReset_pxByte _

/-- Settles O39: every register by its definition, and each entry of PAL. -/
theorem resetRegisterValues : Obligations.ResetRegisterValues :=
  ⟨rfl, rfl, rfl, rfl, rfl, rfl, rfl, rfl, rfl, rfl, rfl, reset_pal_getElem, rfl⟩

end Sys2Proof.Machine
end

section
/-! PROOF. Colour addresses, the platform window and the signal-level binding (20_memory.md rules R43,
R51, R64). -/

namespace Sys2Proof.Machine

/-- The greatest colour address is even, so the high byte's address does not wrap either. -/
theorem caddr_add_one_toNat (b n : Nibble) :
    (caddr b n + 1).toNat = 32 * b.toNat + 2 * n.toNat + 1 := by
  have hfits : (caddr b n).toNat + (1 : CgAddr).toNat < 2 ^ 9 := by
    rw [caddr_toNat]
    change _ + 1 < 2 ^ 9
    omega
  rw [BitVec.toNat_add_of_lt hfits, caddr_toNat]
  rfl

/-- Settles O17: the address as a number gives every clause. -/
theorem colorAddressFormula : Obligations.ColorAddressFormula := by
  intro b n
  have haddr := caddr_toNat b n
  exact ⟨haddr, by omega, by omega, by omega, caddr_add_one_toNat b n⟩

/-- Settles O37: inside the window the offset fits the 10 bits of a local address, and every local
address lies inside the window. -/
theorem platformWindow : Obligations.PlatformWindow := by
  intro base a l
  have hl := l.isLt
  unfold platformAddr
  split_ifs with inside
  · rw [Option.some_inj, ← BitVec.toNat_inj, BitVec.toNat_ofNat]
    omega
  · constructor
    · nofun
    · omega

theorem clockEdge_rst {p : Pins} (hrst : p.rst = true) (s : State) :
    clockEdge p s = .next (hardwareReset s) := by
  rw [clockEdge, if_pos hrst]

theorem clockEdge_write {p : Pins} (hrst : p.rst = false) (hsel : p.sel = true) (hwr : p.wr = true)
    (s : State) : clockEdge p s = hostWrite p.addr p.wdata s := by
  simp [clockEdge, hrst, hsel, hwr]

theorem clockEdge_idle {p : Pins} (hrst : p.rst = false) (h : p.sel = false ∨ p.wr = false)
    (s : State) : clockEdge p s = .next s := by
  obtain h | h := h <;> simp [clockEdge, hrst, h]

theorem rdata_read {p : Pins} (hsel : p.sel = true) (hwr : p.wr = false) (s : State) :
    rdata p s = hostRead s p.addr := by
  simp [rdata, hsel, hwr]

theorem rdata_idle {p : Pins} (h : p.sel = false ∨ p.wr = true) (s : State) : rdata p s = 0x00 := by
  obtain h | h := h <;> simp [rdata, h]

/-- Settles O36: each kind of edge is the step of the event that the pins present. -/
theorem signalsPerformTransactions : Obligations.SignalsPerformTransactions := by
  intro p s rest
  refine ⟨?reset, ?write, ?idle, ?read, ?noRead⟩
  case reset =>
    intro hrst
    rw [clockEdge_rst hrst, step_hardwareReset rfl]
  case write =>
    intro hrst hsel hwr
    rw [clockEdge_write hrst hsel hwr, step_write rfl]
  case idle => exact fun hrst h => clockEdge_idle hrst h s
  case read =>
    intro hsel hwr
    rw [step_read rfl, rdata_read hsel hwr]
    rfl
  case noRead => exact fun h => rdata_idle h s

end Sys2Proof.Machine
end

section
/-! PROOF. What each command leaves alone (20_memory.md rule R55). -/

namespace Sys2Proof.Machine

/-- Settles O45: command by command, from the one equation of its meaning; TENC and SBNK once for each
of their outcomes, the raising one being shut out of the clause on the error registers. -/
theorem commandsWriteOnlyTheirState : Obligations.CommandsWriteOnlyTheirState := by
  intro i s t h
  cases i with
  | nop => cases (execNop_eq s).symm.trans h; simp
  | tdec => cases (execTdec_eq s).symm.trans h; simp
  | tenc =>
    obtain ⟨k, hk, hc, e⟩ | ⟨-, e⟩ := execTenc_cases s
    · have hraises : ¬ ∀ k, (s.pxByte k).toNat ≤ 15 := by
        rw [← firstOor_eq_none, hk]
        nofun
      cases e.symm.trans h
      simp [hc, hraises]
    · cases e.symm.trans h; simp
  | pdec b => cases (execPdec_eq b s).symm.trans h; simp
  | sbnk p =>
    obtain hp | hp := Nat.lt_or_ge 7 p.toNat
    · cases (execSbnk_illegal hp s).symm.trans h
      simp [Nat.not_le.mpr hp]
    · cases (execSbnk_legal hp s).symm.trans h; simp
  | pdcb => cases (execPdcb_eq s).symm.trans h; simp
  | clut n => cases (execClut_eq n s).symm.trans h; simp
  | trgb => cases (execTrgb_eq s).symm.trans h; simp
  | frgb => cases (execFrgb_eq s).symm.trans h; simp
  | clre => cases (execClre_eq s).symm.trans h; simp
  | srst => cases (execSrst_eq s).symm.trans h; simp

end Sys2Proof.Machine
end

section
/-! PROOF. The read table and the write table over the whole local space (20_memory.md rules R41, R42):
each row from the location that its address names. -/

namespace Sys2Proof.Machine

/-! The locations of the address map that the tables name by index or by range. -/

theorem locate_cg_ofNat (i : Fin 512) :
    locate (BitVec.ofNat 10 i.val) = .cg (BitVec.ofNat 9 i.val) := by
  have hi : (BitVec.ofNat 10 i.val).toNat = i.val := by
    rw [BitVec.toNat_ofNat]
    omega
  rw [locate_cg (by omega), BitVec.setWidth_ofNat_of_le (by decide)]

theorem locate_pal {a : LocalAddr} (hlo : 0x220 ≤ a.toNat) (hhi : a.toNat ≤ 0x23F) :
    ∃ k, locate a = .palLo k ∨ locate a = .palHi k := by
  unfold locate
  rw [if_neg (by omega), dif_neg (by omega), dif_pos (by omega)]
  split_ifs
  · exact ⟨_, .inl rfl⟩
  · exact ⟨_, .inr rfl⟩

theorem locate_errorRegister {a : LocalAddr} (hlo : 0x282 ≤ a.toNat) (hhi : a.toNat ≤ 0x285) :
    locate a = .status ∨ locate a = .errCode ∨ locate a = .errIdx ∨ locate a = .errVal := by
  have ha : a = 0x282 ∨ a = 0x283 ∨ a = 0x284 ∨ a = 0x285 := by
    simp only [← BitVec.toNat_inj]
    change a.toNat = 0x282 ∨ a.toNat = 0x283 ∨ a.toNat = 0x284 ∨ a.toNat = 0x285
    omega
  obtain rfl | rfl | rfl | rfl := ha
  · exact .inl rfl
  · exact .inr (.inl rfl)
  · exact .inr (.inr (.inl rfl))
  · exact .inr (.inr (.inr rfl))

/-! The bytes of the registers as numbers. -/

theorem colorLoByte_toNat (c : Color15) : (colorLoByte c).toNat = c.toNat % 256 := by
  simp [colorLoByte]

theorem colorHiByte_toNat (c : Color15) : (colorHiByte c).toNat = c.toNat / 256 := by
  have hc := c.isLt
  simp [colorHiByte, Nat.shiftRight_eq_div_pow]
  omega

theorem ctrlByte_toNat (s : State) : s.ctrlByte.toNat = 2 * s.ie.toNat + s.clamp.toNat := by
  unfold State.ctrlByte
  cases s.ie <;> cases s.clamp <;> rfl

theorem statusByte_toNat (s : State) : s.statusByte.toNat = 2 * s.clamped.toNat + s.err.toNat := by
  unfold State.statusByte
  cases s.clamped <;> cases s.err <;> rfl

theorem setColorLo_eq_ofNat (c : Color15) (v : Byte) :
    setColorLo c v = BitVec.ofNat 15 (c.toNat / 256 * 256 + v.toNat) := by
  apply BitVec.eq_of_toNat_eq
  have hc := c.isLt
  have hv := v.isLt
  simp only [setColorLo, BitVec.toNat_append, BitVec.extractLsb'_toNat, BitVec.toNat_ofNat,
    Nat.shiftRight_eq_div_pow]
  rw [← Nat.shiftLeft_add_eq_or_of_lt hv, Nat.shiftLeft_eq]
  omega

theorem setColorHi_eq_ofNat (c : Color15) (v : Byte) :
    setColorHi c v = BitVec.ofNat 15 (v.toNat % 128 * 256 + c.toNat % 256) := by
  apply BitVec.eq_of_toNat_eq
  have hlo : (c.extractLsb' 0 8).toNat < 2 ^ 8 := (c.extractLsb' 0 8).isLt
  simp only [setColorHi, BitVec.toNat_append, BitVec.toNat_ofNat]
  rw [← Nat.shiftLeft_add_eq_or_of_lt hlo, Nat.shiftLeft_eq]
  simp only [BitVec.extractLsb'_toNat, Nat.shiftRight_zero]
  omega

/-- BANK takes the low 4 bits of a written byte (20_memory.md rule R44). -/
theorem extractLsb'_zero_four (v : Byte) : v.extractLsb' 0 4 = BitVec.ofNat 4 (v.toNat % 16) := by
  apply BitVec.eq_of_toNat_eq
  simp

/-! A read and a write by the location that the address names. -/

theorem hostRead_of_locate {a : LocalAddr} {l : Location} (h : locate a = l) (s : State) :
    hostRead s a = readLocation s l := by
  rw [hostRead, h]

theorem hostWrite_of_locate {a : LocalAddr} {l : Location} (h : locate a = l) (hl : l ≠ .cmd)
    (v : Byte) (s : State) : hostWrite a v s = .next (writeLocation s v l) := by
  have ha : a ≠ 0x280 := fun e => hl (h ▸ locate_eq_cmd.mpr e)
  rw [hostWrite_other ha, h]

theorem hostWrite_reserved {a : LocalAddr} (h : a = 0x287 ∨ 0x28D ≤ a.toNat) (v : Byte) (s : State) :
    hostWrite a v s = .next s :=
  hostWrite_of_locate (locate_reserved h) nofun v s

theorem hostWrite_pal {a : LocalAddr} (hlo : 0x220 ≤ a.toNat) (hhi : a.toNat ≤ 0x23F) (v : Byte)
    (s : State) : hostWrite a v s = .next s := by
  obtain ⟨k, h | h⟩ := locate_pal hlo hhi <;> exact hostWrite_of_locate h nofun v s

theorem hostWrite_errorRegister {a : LocalAddr} (hlo : 0x282 ≤ a.toNat) (hhi : a.toNat ≤ 0x285)
    (v : Byte) (s : State) : hostWrite a v s = .next s := by
  obtain h | h | h | h := locate_errorRegister hlo hhi <;> exact hostWrite_of_locate h nofun v s

theorem hostWrite_cg (i : Fin 512) (v : Byte) (s : State) :
    hostWrite (BitVec.ofNat 10 i.val) v s = .next { s with cg := s.cg.write i.val v } := by
  have hi : (BitVec.ofNat 9 i.val).toNat = i.val := by
    rw [BitVec.toNat_ofNat]
    omega
  rw [hostWrite_of_locate (locate_cg_ofNat i) nofun, writeLocation, hi]

/-- Settles O30: the record of the step, then the read table row by row. -/
theorem hostReadTable : Obligations.HostReadTable := by
  refine ⟨fun s a rest h => step_read h, fun s => ?_⟩
  refine ⟨fun i => hostRead_of_locate (locate_cg_ofNat i) s, fun j => hostRead_of_locate (locate_tb j) s,
    fun k => ⟨?palLo, ?palHi⟩, fun k => hostRead_of_locate (locate_px k) s, rfl, ctrlByte_toNat s,
    statusByte_toNat s, rfl, rfl, rfl, ?bank, rfl, colorLoByte_toNat s.color, colorHiByte_toNat s.color,
    rfl, rfl, rfl, fun a ha => hostRead_of_locate (locate_reserved (.inr ha)) s⟩
  case palLo =>
    rw [hostRead_of_locate (locate_palLo k)]
    exact colorLoByte_toNat _
  case palHi =>
    rw [hostRead_of_locate (locate_palHi k)]
    exact colorHiByte_toNat _
  case bank => exact BitVec.toNat_setWidth_of_le (by decide)

/-- Settles O31: a write to CMD is the issue of its byte, and any other is the plain write of the
location that its address names. -/
theorem hostWriteTable : Obligations.HostWriteTable := by
  intro s v
  refine ⟨fun i => hostWrite_cg i v s, fun j => hostWrite_of_locate (locate_tb j) nofun v s,
    fun a hlo hhi => hostWrite_pal hlo hhi v s, fun k => hostWrite_of_locate (locate_px k) nofun v s,
    hostWrite_cmd v s, rfl, fun a hlo hhi => hostWrite_errorRegister hlo hhi v s, ?bank,
    hostWrite_reserved (.inl rfl) v s, ?colorLo, ?colorHi, rfl, rfl, rfl,
    fun a ha => hostWrite_reserved (.inr ha) v s⟩
  case bank =>
    rw [← extractLsb'_zero_four]
    rfl
  case colorLo =>
    rw [← setColorLo_eq_ofNat]
    rfl
  case colorHi =>
    rw [← setColorHi_eq_ofNat]
    rfl

end Sys2Proof.Machine
end

section
/-! PROOF. What a plain write leaves readable: its own location shows the written bits and every other
location reads as before (20_memory.md rules R43, R44, R56). -/

namespace Sys2Proof.Machine

/-! The address of a location. -/

/-- The local address of a location, for a reserved one the lowest of its addresses
(20_memory.md rule R43). -/
def Location.address : Location → LocalAddr
  | .cg a => BitVec.ofNat 10 a.toNat
  | .tb j => BitVec.ofNat 10 (0x200 + j.val)
  | .palLo k => BitVec.ofNat 10 (0x220 + 2 * k.val)
  | .palHi k => BitVec.ofNat 10 (0x221 + 2 * k.val)
  | .px k => BitVec.ofNat 10 (0x240 + k.val)
  | .cmd => 0x280
  | .ctrl => 0x281
  | .status => 0x282
  | .errCode => 0x283
  | .errIdx => 0x284
  | .errVal => 0x285
  | .bank => 0x286
  | .reserved => 0x287
  | .colorLo => 0x288
  | .colorHi => 0x289
  | .rgbR => 0x28A
  | .rgbG => 0x28B
  | .rgbB => 0x28C

theorem registerAt_address (n : Nat) :
    registerAt n = .reserved ∨ (registerAt n).address.toNat = n := by
  unfold registerAt
  split <;> simp [Location.address]

/-- Every location but a reserved one has one address. -/
theorem locate_address (a : LocalAddr) : locate a = .reserved ∨ (locate a).address = a := by
  have ha := a.isLt
  rw [← BitVec.toNat_inj]
  unfold locate
  split_ifs
  on_goal 6 => exact registerAt_address a.toNat
  all_goals
    simp [Location.address]
    omega

/-- Two addresses that name the same location are reserved. -/
theorem locate_reserved_of_eq {a b : LocalAddr} (h : locate b = locate a) (hne : b ≠ a) :
    locate a = .reserved := by
  obtain ha | ha := locate_address a
  · exact ha
  · obtain hb | hb := locate_address b
    · exact h ▸ hb
    · exact absurd (hb.symm.trans (h ▸ ha)) hne

/-! The writable bits of a location. -/

/-- The bits of a location that a plain write stores (20_memory.md rule R44). -/
def Location.mask : Location → Byte
  | .cg _ | .tb _ | .px _ | .colorLo | .rgbR | .rgbG | .rgbB => 0xFF
  | .ctrl => 0x03
  | .bank => 0x0F
  | .colorHi => 0x7F
  | .palLo _ | .palHi _ | .cmd | .status | .errCode | .errIdx | .errVal | .reserved => 0x00

theorem registerAt_mask {a : LocalAddr} (h : 0x280 ≤ a.toNat) :
    (registerAt a.toNat).mask = writableMask a := by
  unfold writableMask
  rw [if_neg (by omega), if_neg (by omega), if_neg (by omega)]
  have eq_iff (b : LocalAddr) : a = b ↔ a.toNat = b.toNat := BitVec.toNat_inj.symm
  simp only [eq_iff]
  generalize a.toNat = n
  unfold registerAt
  split <;> simp_all [Location.mask]

/-- The mask of the address map is the mask of the location that the address names. -/
theorem writableMask_eq_mask (a : LocalAddr) : writableMask a = (locate a).mask := by
  obtain h | h := Nat.lt_or_ge a.toNat 0x280
  · unfold writableMask locate
    split_ifs <;> first | rfl | omega
  · rw [← registerAt_mask h, locate, if_neg (by omega), dif_neg (by omega), dif_neg (by omega),
      dif_neg (by omega)]

theorem masked_all (v r : Byte) : (v &&& 0xFF) ||| (r &&& ~~~0xFF) = v := by
  change (v &&& BitVec.allOnes 8) ||| (r &&& ~~~(BitVec.allOnes 8)) = v
  rw [BitVec.and_allOnes, BitVec.not_allOnes, BitVec.and_zero, BitVec.or_zero]

theorem masked_none (v r : Byte) : (v &&& 0x00) ||| (r &&& ~~~0x00) = r := by
  change (v &&& 0#8) ||| (r &&& ~~~0#8) = r
  rw [BitVec.and_zero, BitVec.zero_or, BitVec.not_zero, BitVec.and_allOnes]

/-- A register of `n` bits that takes the low bits of a byte reads as the byte in those bits and as
before, namely 0, in the others. -/
theorem masked_lowBits {n : Nat} (v : Byte) (x : BitVec n) :
    (v &&& BitVec.ofNat 8 (2 ^ n - 1)) ||| (x.setWidth 8 &&& ~~~(BitVec.ofNat 8 (2 ^ n - 1))) =
      (v.extractLsb' 0 n).setWidth 8 := by
  apply BitVec.eq_of_getLsbD_eq
  intro i hi
  have hmask : (BitVec.ofNat 8 (2 ^ n - 1)).getLsbD i = decide (i < n) := by
    rw [BitVec.getLsbD_ofNat, Nat.testBit_two_pow_sub_one, decide_eq_true hi, Bool.true_and]
  simp only [BitVec.getLsbD_or, BitVec.getLsbD_and, BitVec.getLsbD_not, BitVec.getLsbD_setWidth,
    BitVec.getLsbD_extractLsb', hmask]
  by_cases h : i < n
  · simp [hi, h]
  · simp [h, BitVec.getLsbD_of_ge x i (Nat.le_of_not_lt h)]

/-! A read after a plain write. -/

theorem State.tbByte_of_write_same {s t : State} {j : Fin 32} {v : Byte}
    (htb : t.tb = s.tb.write j.val v) : t.tbByte j = v := by
  simp [State.tbByte, htb]

theorem State.tbByte_of_write_other {s t : State} {j k : Fin 32} {v : Byte}
    (htb : t.tb = s.tb.write k.val v) (hresets : t.resets = s.resets) (hne : j ≠ k) :
    t.tbByte j = s.tbByte j := by
  rw [State.tbByte, htb, Memory.read?_write_other _ v (Fin.val_ne_of_ne hne), hresets, State.tbByte]

theorem State.pxByte_of_write_same {s t : State} {k : Fin 64} {v : Byte}
    (hpx : t.px = s.px.write k.val v) : t.pxByte k = v := by
  simp [State.pxByte, hpx]

theorem State.pxByte_of_write_other {s t : State} {j k : Fin 64} {v : Byte}
    (hpx : t.px = s.px.write k.val v) (hresets : t.resets = s.resets) (hne : j ≠ k) :
    t.pxByte j = s.pxByte j := by
  rw [State.pxByte, hpx, Memory.read?_write_other _ v (Fin.val_ne_of_ne hne), hresets, State.pxByte]

/-- CTRL takes the low 2 bits of a written byte (20_memory.md rule R44). -/
theorem ctrlByte_write (s : State) (v : Byte) :
    (writeLocation s v .ctrl).ctrlByte = (v.extractLsb' 0 2).setWidth 8 := by
  have hbits : BitVec.ofBool (v.getLsbD 1) ++ BitVec.ofBool (v.getLsbD 0) = v.extractLsb' 0 2 := by
    apply BitVec.eq_of_getLsbD_eq
    intro i hi
    interval_cases i <;> simp only [BitVec.getLsbD_append] <;> simp
  rw [State.ctrlByte, ← hbits]
  rfl

/-- A written location reads as the written byte in its writable bits and as before in the others. -/
theorem readLocation_write_same (s : State) (v : Byte) (l : Location) :
    readLocation (writeLocation s v l) l = (v &&& l.mask) ||| (readLocation s l &&& ~~~ l.mask) := by
  cases l with
  | cg a => exact (State.cgByte_of_write_same rfl).trans (masked_all v _).symm
  | tb j => exact (State.tbByte_of_write_same rfl).trans (masked_all v _).symm
  | px k => exact (State.pxByte_of_write_same rfl).trans (masked_all v _).symm
  | ctrl => exact (ctrlByte_write s v).trans (masked_lowBits v _).symm
  | bank => exact (masked_lowBits v s.bank).symm
  | colorLo => exact (colorLoByte_setColorLo s.color v).trans (masked_all v _).symm
  | colorHi => exact (colorHiByte_setColorHi s.color v).trans (masked_lowBits v _).symm
  | rgbR => exact (masked_all v s.rgbR).symm
  | rgbG => exact (masked_all v s.rgbG).symm
  | rgbB => exact (masked_all v s.rgbB).symm
  | _ => exact (masked_none v _).symm

/-- A plain write leaves what every other location reads as. Two bytes of one memory and the two halves
of COLOR are the locations that share an element of the state. -/
theorem readLocation_write_other (s : State) (v : Byte) {l m : Location} (h : m ≠ l) :
    readLocation (writeLocation s v l) m = readLocation s m := by
  cases l with
  | cg a =>
    cases m with
    | cg b => exact State.cgByte_of_write_other rfl rfl fun e => h (congrArg _ e)
    | _ => rfl
  | tb j =>
    cases m with
    | tb k => exact State.tbByte_of_write_other rfl rfl fun e => h (congrArg _ e)
    | _ => rfl
  | px j =>
    cases m with
    | px k => exact State.pxByte_of_write_other rfl rfl fun e => h (congrArg _ e)
    | _ => rfl
  | colorLo =>
    cases m with
    | colorLo => exact absurd rfl h
    | colorHi => exact colorHiByte_setColorLo s.color v
    | _ => rfl
  | colorHi =>
    cases m with
    | colorHi => exact absurd rfl h
    | colorLo => exact colorLoByte_setColorHi s.color v
    | _ => rfl
  | ctrl | bank | rgbR | rgbG | rgbB => cases m <;> first | rfl | exact absurd rfl h
  | _ => rfl

/-- Settles O32: another address names another location, unless both are reserved, where a write does
nothing. -/
theorem hostWriteThenRead : Obligations.HostWriteThenRead := by
  intro s a v ha
  refine ⟨_, hostWrite_other ha v s, ?same, fun b hb => ?other⟩
  case same =>
    rw [writableMask_eq_mask]
    exact readLocation_write_same s v (locate a)
  case other =>
    by_cases hl : locate b = locate a
    · rw [locate_reserved_of_eq hl hb]
      rfl
    · exact readLocation_write_other s v hl

end Sys2Proof.Machine
end

section
/-! PROOF. A host write repeated at once leaves the same state (20_memory.md rule R46): a plain write
stores the same bits, and a command reads nothing that it writes otherwise than it stands. -/

namespace Sys2Proof.Machine

theorem setColorLo_setColorLo (c : Color15) (v : Byte) :
    setColorLo (setColorLo c v) v = setColorLo c v := by
  have h : (setColorLo c v).extractLsb' 8 7 = c.extractLsb' 8 7 := BitVec.extractLsb'_append_eq_left
  rw [setColorLo, h, setColorLo]

theorem setColorHi_setColorHi (c : Color15) (v : Byte) :
    setColorHi (setColorHi c v) v = setColorHi c v := by
  have h := colorLoByte_setColorHi c v
  unfold colorLoByte at h
  rw [setColorHi, h, setColorHi]

theorem writeLocation_idem (s : State) (v : Byte) (l : Location) :
    writeLocation (writeLocation s v l) v l = writeLocation s v l := by
  cases l with
  | cg _ | tb _ | px _ => simp only [writeLocation, Memory.write_write_same]
  | colorLo => simp only [writeLocation, setColorLo_setColorLo]
  | colorHi => simp only [writeLocation, setColorHi_setColorHi]
  | _ => rfl

theorem clampedAfter_idem (oor : Option (Fin 64)) (clamped : Bool) :
    clampedAfter oor (clampedAfter oor clamped) = clampedAfter oor clamped := by
  rw [clampedAfter, clampedAfter, Bool.or_assoc, Bool.or_self]

/-- The state that a TENC leaves when it encodes, with CLAMPED at a given value
(40_tile_codec.md rules R97, R98). -/
def State.tencEncoded (s : State) (clamped : Bool) : State :=
  { s with
    cmd := encode .tenc
    tb := Memory.table (encodeTile machineGeometry fun k => clampPixel (s.pxByte k))
    clamped := clamped }

theorem execTenc_encoded {s : State} (h : firstOor s.pxByte = none ∨ s.clamp = true) :
    exec .tenc s = .next (s.tencEncoded (clampedAfter (firstOor s.pxByte) s.clamped)) :=
  execTenc_encode h

/-- A command executed again, whatever its outcome, answers the same state: none writes an element that
it reads, but for the sticky flag CLAMPED. -/
theorem exec_idem {i : Instr} {s t : State} (h : exec i s = .next t) : exec i t = .next t := by
  cases i with
  | tenc =>
    obtain ⟨k, hk, hc, e⟩ | ⟨hkeeps, e⟩ := execTenc_cases s
    · cases e.symm.trans h
      exact execTenc_reject hk hc
    · cases e.symm.trans h
      exact (execTenc_encoded (by exact hkeeps)).trans
        (congrArg (fun c => Host.Outcome.next (s.tencEncoded c)) (clampedAfter_idem _ s.clamped))
  | sbnk p =>
    obtain hp | hp := Nat.lt_or_ge 7 p.toNat
    · cases (execSbnk_illegal hp s).symm.trans h
      exact execSbnk_illegal hp _
    · cases (execSbnk_legal hp s).symm.trans h
      exact execSbnk_legal hp _
  | _ => cases h; rfl

/-- A byte that decodes to a command is executed or ignored, whatever the error lock says. -/
theorem issue_of_decode {w : Byte} {i : Instr} (h : decode w = .ok i) (s : State) :
    issue w s = exec i s ∨ issue w s = .next s := by
  obtain ⟨-, -, -, e⟩ | ⟨-, rfl, e⟩ | ⟨-, rfl, e⟩ | ⟨-, ⟨r, hr⟩, -⟩ | ⟨-, j, hj, e⟩ := issue_cases w s
  · exact .inr e
  · cases h; exact .inl e
  · cases h; exact .inl e
  · cases h.symm.trans hr
  · cases h.symm.trans hj; exact .inl e

/-- A byte that decodes to no command is ignored under the error lock; outside it the error that it
raises sets the lock. -/
theorem issue_idem_of_reserved {w : Byte} {r : Reserved} (h : decode w = .error r) {s t : State}
    (hx : issue w s = .next t) : issue w t = .next t := by
  have h1 : w ≠ 0xE0 := by rintro rfl; cases h
  have h2 : w ≠ 0xF0 := by rintro rfl; cases h
  cases he : s.err with
  | true =>
    cases (issue_locked he h1 h2).symm.trans hx
    exact hx
  | false =>
    cases (issue_reserved he h).symm.trans hx
    exact issue_locked rfl h1 h2

theorem issue_idem {w : Byte} {s t : State} (hx : issue w s = .next t) : issue w t = .next t := by
  cases hw : decode w with
  | error r => exact issue_idem_of_reserved hw hx
  | ok i =>
    obtain e | e := issue_of_decode hw s
    · have ht : exec i t = .next t := exec_idem (e.symm.trans hx)
      obtain e' | e' := issue_of_decode hw t
      · exact e'.trans ht
      · exact e'
    · cases e.symm.trans hx
      exact e

theorem issue_answers (w : Byte) (s : State) : ∃ t, issue w s = .next t := by
  obtain ⟨-, -, -, e⟩ | ⟨-, -, e⟩ | ⟨-, -, e⟩ | ⟨-, -, e⟩ | ⟨-, i, -, e⟩ := issue_cases w s
  · exact ⟨_, e⟩
  · exact ⟨_, e.trans (execClre_eq s)⟩
  · exact ⟨_, e.trans (execSrst_eq s)⟩
  · exact ⟨_, e⟩
  · obtain ⟨t, ht, -⟩ := exec_effect i s
    exact ⟨t, e.trans ht⟩

/-- Settles O33: a command for a write to CMD, the stored bits for any other. -/
theorem repeatedWriteIdempotent : Obligations.RepeatedWriteIdempotent := by
  intro a v s
  obtain rfl | ha := eq_or_ne a 0x280
  · obtain ⟨t, ht⟩ := issue_answers v s
    exact ⟨t, ht, issue_idem ht⟩
  · refine ⟨_, hostWrite_other ha v s, ?_⟩
    rw [hostWrite_other ha, writeLocation_idem]

end Sys2Proof.Machine
end

section
/-! PROOF. Loading the colour table (20_memory.md rule R63): the writes of a byte list to CG run as one
update of the memory. -/

namespace Sys2Proof.Machine

/-- The bytes of a list written at ascending indices. -/
def Memory.writeBytes (m : Memory) (a : Nat) : Bytes → Memory
  | [] => m
  | b :: bs => Memory.writeBytes (m.write a b) (a + 1) bs

theorem Memory.read?_writeBytes_below (m : Memory) {a i : Nat} (bs : Bytes) (h : i < a) :
    (m.writeBytes a bs).read? i = m.read? i := by
  induction bs generalizing m a with
  | nil => rfl
  | cons b bs ih =>
    rw [Memory.writeBytes, ih _ (by omega), Memory.read?_write_other _ _ (by omega)]

theorem Memory.read?_writeBytes (m : Memory) (a : Nat) (bs : Bytes) {i : Nat} (h : i < bs.length) :
    (m.writeBytes a bs).read? (a + i) = bs[i]? := by
  induction bs generalizing m a i with
  | nil => simp at h
  | cons b bs ih =>
    rw [Memory.writeBytes]
    cases i with
    | zero => simp [Memory.read?_writeBytes_below]
    | succ i =>
      have hi : i < bs.length := by simpa using h
      rw [List.getElem?_cons_succ, ← ih (m.write a b) (a + 1) hi]
      congr 1
      omega

theorem step_write_cg {a : Nat} (ha : a < 512) (b : Byte) (rest : List HostEvent) (s : State) :
    step { s with script := .write (BitVec.ofNat 10 a) b :: rest } =
      .next { s with cg := s.cg.write a b, script := rest } :=
  (step_write rfl).trans (hostWrite_cg ⟨a, ha⟩ b { s with script := rest })

/-- The writes of a byte list inside CG, run to their end. -/
theorem run_writesFrom_cg {a : Nat} (bs : Bytes) (h : a + bs.length ≤ 512) (rest : List HostEvent)
    (s : State) :
    core.run bs.length { s with script := writesFrom a bs ++ rest } =
      .next { s with cg := s.cg.writeBytes a bs, script := rest } := by
  induction bs generalizing a s with
  | nil => rfl
  | cons b bs ih =>
    rw [List.length_cons] at h ⊢
    have hstep := step_write_cg (a := a) (by omega) b (writesFrom (a + 1) bs ++ rest) s
    exact (core_run_succ bs.length hstep).trans (ih (by omega) { s with cg := s.cg.write a b })

/-- Settles O34: a snapshot of 512 bytes is written from CG[0] up. -/
theorem colorTableLoads : Obligations.ColorTableLoads := by
  refine ⟨fun snapshot h => if_neg h, fun s snapshot rest h => ?_⟩
  have hrun := run_writesFrom_cg (a := 0) snapshot (by omega) rest s
  rw [h] at hrun
  refine ⟨_, if_pos h, _, hrun, rfl, fun i => ?_⟩
  have hi : (BitVec.ofNat 9 i.val).toNat = i.val := by
    rw [BitVec.toNat_ofNat]
    omega
  have hlt : i.val < snapshot.length := by omega
  have hread := Memory.read?_writeBytes s.cg 0 snapshot hlt
  rw [Nat.zero_add] at hread
  have hbyte : snapshot[i.val]? = some snapshot[i.val] := List.getElem?_eq_getElem hlt
  rw [State.cgByte, hi, hread, hbyte, Option.getD_some]

end Sys2Proof.Machine
end

section
/-! PROOF. Decoding and encoding are inverse to each other (30_encoding.md rules R70 to R76): what the
two fields of a byte decode to is said once, by the format of the opcode, and the round trip and the
reserved encodings follow. -/

namespace Sys2Proof.Machine

theorem commandByte_fields (w : Byte) : commandByte (opField w) (argField w) = w := by
  rw [commandByte, opField, argField, BitVec.extractLsb'_append_extractLsb'_eq_extractLsb' (by rfl)]
  exact BitVec.extractLsb'_eq_self

theorem opField_toNat (w : Byte) : (opField w).toNat = w.toNat / 16 := by
  have := w.isLt
  rw [opField, BitVec.extractLsb'_toNat, Nat.shiftRight_eq_div_pow]
  omega

theorem argField_toNat (w : Byte) : (argField w).toNat = w.toNat % 16 := by
  rw [argField, BitVec.extractLsb'_toNat, Nat.shiftRight_zero]

theorem formatC0_eq_ok {op arg : Nibble} {i j : Instr} :
    formatC0 op arg i = .ok j ↔ arg = 0 ∧ i = j := by
  unfold formatC0
  split
  next h => simp only [h, true_and, Except.ok.injEq]
  next h => simp only [h, false_and, reduceCtorEq]

theorem formatC0_eq_error {op arg : Nibble} {i : Instr} :
    (∃ r, formatC0 op arg i = .error r) ↔ arg ≠ 0 := by
  unfold formatC0
  split
  next h => simp only [h, reduceCtorEq, exists_false, ne_eq, not_true_eq_false]
  next h => simp only [h, Except.error.injEq, exists_eq', ne_eq, not_false_eq_true]

/-- All that the two fields can decode to, by the format of the opcode (30_encoding.md rules R71, R74,
R75): a command without an operand, a command with one, or nothing. -/
theorem decodeFields_cases (op arg : Nibble) :
    (op.toNat ∈ [0x0, 0x1, 0x2, 0x5, 0x7, 0x8, 0xE, 0xF] ∧
      ∃ i, encode i = commandByte op 0 ∧ decodeFields op arg = formatC0 op arg i) ∨
    (op.toNat ∈ [0x3, 0x4, 0x6] ∧
      ∃ i, encode i = commandByte op arg ∧ decodeFields op arg = .ok i) ∨
    (0x9 ≤ op.toNat ∧ op.toNat ≤ 0xD ∧ decodeFields op arg = .error (.unassignedOpcode op)) := by
  unfold decodeFields
  split
  next h => obtain rfl : op = 0x0 := BitVec.eq_of_toNat_eq h; exact .inl ⟨by decide, .nop, rfl, rfl⟩
  next h => obtain rfl : op = 0x1 := BitVec.eq_of_toNat_eq h; exact .inl ⟨by decide, .tdec, rfl, rfl⟩
  next h => obtain rfl : op = 0x2 := BitVec.eq_of_toNat_eq h; exact .inl ⟨by decide, .tenc, rfl, rfl⟩
  next h =>
    obtain rfl : op = 0x3 := BitVec.eq_of_toNat_eq h
    exact .inr (.inl ⟨by decide, .pdec arg, rfl, rfl⟩)
  next h =>
    obtain rfl : op = 0x4 := BitVec.eq_of_toNat_eq h
    exact .inr (.inl ⟨by decide, .sbnk arg, rfl, rfl⟩)
  next h => obtain rfl : op = 0x5 := BitVec.eq_of_toNat_eq h; exact .inl ⟨by decide, .pdcb, rfl, rfl⟩
  next h =>
    obtain rfl : op = 0x6 := BitVec.eq_of_toNat_eq h
    exact .inr (.inl ⟨by decide, .clut arg, rfl, rfl⟩)
  next h => obtain rfl : op = 0x7 := BitVec.eq_of_toNat_eq h; exact .inl ⟨by decide, .trgb, rfl, rfl⟩
  next h => obtain rfl : op = 0x8 := BitVec.eq_of_toNat_eq h; exact .inl ⟨by decide, .frgb, rfl, rfl⟩
  next h => obtain rfl : op = 0xE := BitVec.eq_of_toNat_eq h; exact .inl ⟨by decide, .clre, rfl, rfl⟩
  next h => obtain rfl : op = 0xF := BitVec.eq_of_toNat_eq h; exact .inl ⟨by decide, .srst, rfl, rfl⟩
  next =>
    obtain ⟨hlo, hhi⟩ : 0x9 ≤ op.toNat ∧ op.toNat ≤ 0xD := by simp only [imp_false] at *; omega
    exact .inr (.inr ⟨hlo, hhi, rfl⟩)

/-- Whatever two fields decode to, its byte has these fields: no bit of a command's byte is ignored. -/
theorem encode_of_decodeFields {op arg : Nibble} {i : Instr} (h : decodeFields op arg = .ok i) :
    encode i = commandByte op arg := by
  obtain ⟨-, j, hj, hd⟩ | ⟨-, j, hj, hd⟩ | ⟨-, -, hd⟩ := decodeFields_cases op arg
  · obtain ⟨rfl, rfl⟩ := formatC0_eq_ok.mp (hd.symm.trans h)
    exact hj
  · cases hd.symm.trans h
    exact hj
  · cases hd.symm.trans h

theorem encode_of_decode {w : Byte} {i : Instr} (h : decode w = .ok i) : encode i = w :=
  (encode_of_decodeFields h).trans (commandByte_fields w)

/-- Settles O1: each function undoes the other. -/
theorem decodeEncodeAgree : Obligations.DecodeEncodeAgree := by
  refine fun w i => ⟨encode_of_decode, ?_⟩
  rintro rfl
  exact decode_encode i

/-- The two kinds of reserved encoding, as fields (30_encoding.md rule R75). -/
theorem decodeFields_reserved_iff (op arg : Nibble) :
    (∃ r, decodeFields op arg = .error r) ↔
      (0x9 ≤ op.toNat ∧ op.toNat ≤ 0xD) ∨
      (arg ≠ 0 ∧ op.toNat ∈ [0x0, 0x1, 0x2, 0x5, 0x7, 0x8, 0xE, 0xF]) := by
  obtain ⟨hop, i, -, hd⟩ | ⟨hop, i, -, hd⟩ | ⟨hlo, hhi, hd⟩ := decodeFields_cases op arg <;> rw [hd]
  · have hnot : ¬ (0x9 ≤ op.toNat ∧ op.toNat ≤ 0xD) := by
      simp only [List.mem_cons, List.not_mem_nil, or_false] at hop
      omega
    simp only [formatC0_eq_error, hop, hnot, and_true, false_or]
  · have hnot : ¬ (0x9 ≤ op.toNat ∧ op.toNat ≤ 0xD) ∧
        op.toNat ∉ [0x0, 0x1, 0x2, 0x5, 0x7, 0x8, 0xE, 0xF] := by
      simp only [List.mem_cons, List.not_mem_nil, or_false] at hop ⊢
      omega
    simp [hnot]
  · exact iff_of_true ⟨_, rfl⟩ (.inl ⟨hlo, hhi⟩)

/-- Settles O2: the reserved fields, read as numbers from the byte, and a count over the 256 bytes. -/
theorem reservedEncodings : Obligations.ReservedEncodings := by
  refine ⟨fun w => ?_, by decide +kernel⟩
  have hop : (0x9 ≤ w.toNat / 16 ∧ w.toNat / 16 ≤ 0xD) ↔ (0x90 ≤ w.toNat ∧ w.toNat ≤ 0xDF) := by
    omega
  have harg : argField w ≠ 0 ↔ w.toNat % 16 ≠ 0 := by
    rw [← argField_toNat, ne_eq, ← BitVec.toNat_inj]
    rfl
  rw [decode, decodeFields_reserved_iff, harg, opField_toNat, hop]

/-- Settles O3: a written byte that is a command's byte decodes to the command, and the fields of the
other two are reserved. -/
theorem decodeWrittenBytes : Obligations.DecodeWrittenBytes :=
  ⟨decode_encode .nop, decode_encode .tdec, decode_encode (.pdec 15), decode_encode (.sbnk 12),
    decode_encode (.clut 7), decode_encode .srst, rfl, rfl⟩

end Sys2Proof.Machine
end

section
/-! PROOF. Issuing a command: one step of a write to CMD, and the pseudo-instruction SPAL as two of
them (30_encoding.md rules R72, R79). -/

namespace Sys2Proof.Machine

theorem step_issue {s : State} {w : Byte} {rest : List HostEvent}
    (h : s.script = .write 0x280 w :: rest) : step s = issue w { s with script := rest } :=
  (step_write h).trans (hostWrite_cmd w _)

/-- Settles O4: the write issues its byte, and no lock holds it back. -/
theorem stepRunsDecodedCommand : Obligations.StepRunsDecodedCommand :=
  fun _ _ _ _ hscript herr hdecode => (step_issue hscript).trans (issue_command herr hdecode)

/-- Settles O5: one law of `issue` for each branch. -/
theorem issueFollowsLockAndDecode : Obligations.IssueFollowsLockAndDecode := by
  refine fun w s => ⟨hostWrite_cmd w s, ?clre, ?srst, issue_locked, ?command, ?reserved⟩
  case clre => rintro herr rfl; exact issue_clre_locked herr
  case srst => rintro herr rfl; exact issue_srst_locked herr
  case command => exact fun herr _ hdecode => issue_command herr hdecode
  case reserved => rintro herr ⟨r, hdecode⟩; exact issue_reserved herr hdecode

/-- A step of a command that the script presents by its mnemonic. -/
theorem step_issueEvent {s : State} {i : Instr} {rest : List HostEvent}
    (h : s.script = issueEvent i :: rest) (herr : s.err = false) :
    step s = exec i { s with script := rest } :=
  stepRunsDecodedCommand s rest (encode i) i h herr (decode_encode i)

/-- PDCB presented under the error lock is ignored (60_exceptions.md rule R166). -/
theorem step_pdcb_locked {s : State} {rest : List HostEvent}
    (h : s.script = issueEvent .pdcb :: rest) (herr : s.err = true) :
    step s = .next { s with script := rest } :=
  (step_issue h).trans (issue_locked herr (by decide) (by decide))

/-- The address of a colour and that of its high byte, from the numbers (20_memory.md rule R51). -/
theorem caddr_eq_ofNat (b n : Nibble) : caddr b n = BitVec.ofNat 9 (32 * b.toNat + 2 * n.toNat) := by
  rw [← caddr_toNat, BitVec.ofNat_toNat, BitVec.setWidth_eq]

theorem caddr_add_one_eq_ofNat (b n : Nibble) :
    caddr b n + 1 = BitVec.ofNat 9 (32 * b.toNat + 2 * n.toNat + 1) := by
  rw [← caddr_add_one_toNat, BitVec.ofNat_toNat, BitVec.setWidth_eq]

/-- Entry `k` of a decoded bank as a number from CG (41_palette_decoder.md rules R110, R112). -/
theorem decodeBank_getElem_toNat (s : State) (b : Nibble) (k : Fin 16) :
    (s.decodeBank b)[k].toNat =
      ((s.cgByte (BitVec.ofNat 9 (32 * b.toNat + 2 * k.val))).toNat
        + 256 * (s.cgByte (BitVec.ofNat 9 (32 * b.toNat + 2 * k.val + 1))).toNat) % 2 ^ 15 := by
  have hk : (BitVec.ofNat 4 k.val).toNat = k.val := Nat.mod_eq_of_lt k.isLt
  rw [Fin.getElem_fin, decodeBank_getElem, color15_toNat, caddr_add_one_eq_ofNat, caddr_eq_ofNat, hk]

/-- A sprite bank as a number does not wrap (41_palette_decoder.md rule R113). -/
theorem spriteBank_toNat {p : Nibble} (h : p.toNat ≤ 7) : (p + 8).toNat = p.toNat + 8 :=
  BitVec.toNat_add_of_lt (Nat.lt_succ_of_le (Nat.add_le_add_right h 8))

/-- SPAL with a legal operand: SBNK names the bank, PDCB decodes it. -/
theorem run_spal_legal {p : Nibble} (hp : p.toNat ≤ 7) {s : State} {rest : List HostEvent}
    (h : s.script = (ScriptLine.spal p).expand ++ rest) (herr : s.err = false) :
    core.run 2 s = .next { s with
      script := rest, cmd := encode .pdcb, bank := p + 8, pal := s.decodeBank (p + 8) } := by
  have hsbnk := (step_issueEvent h herr).trans (execSbnk_legal hp _)
  have hpdcb := (step_issueEvent (s := { s with
    script := issueEvent .pdcb :: rest, cmd := encode (.sbnk p), bank := p + 8 }) rfl herr).trans
      (execPdcb_eq _)
  exact (core_run_succ 1 hsbnk).trans (core_run_succ 0 hpdcb)

/-- SPAL with an operand above 7: SBNK raises, and the error lock ignores PDCB. -/
theorem run_spal_illegal {p : Nibble} (hp : 7 < p.toNat) {s : State} {rest : List HostEvent}
    (h : s.script = (ScriptLine.spal p).expand ++ rest) (herr : s.err = false) :
    core.run 2 s = .next { raiseError (encode (.sbnk p)) .opRange 0 (p.setWidth 8) s with
      script := rest } := by
  have hsbnk := (step_issueEvent h herr).trans (execSbnk_illegal hp _)
  exact (core_run_succ 1 hsbnk).trans (core_run_succ 0 (step_pdcb_locked rfl rfl))

/-- Settles O25: two steps, with the two outcomes of SBNK. -/
theorem spritePaletteScript : Obligations.SpritePaletteScript := by
  intro p s rest hscript herr
  obtain hp | hp := Nat.lt_or_ge 7 p.toNat
  · have hval : (p.setWidth 8 : Byte).toNat = p.toNat := BitVec.toNat_setWidth_of_le (by decide)
    exact ⟨_, run_spal_illegal hp hscript herr, rfl, fun h => absurd h (by omega),
      fun _ => ⟨rfl, rfl, hval, rfl, rfl⟩⟩
  · have hbank := spriteBank_toNat hp
    refine ⟨_, run_spal_legal hp hscript herr, rfl, fun _ => ⟨herr, hbank, fun k => ?_⟩,
      fun h => absurd h (by omega)⟩
    have hbase : 32 * (p + 8).toNat = 256 + 32 * p.toNat := by omega
    rw [decodeBank_getElem_toNat, hbase]

end Sys2Proof.Machine
end

section
/-! PROOF. The tile codec's two functions over any tile geometry: they undo each other, and each
lane stands alone (40_tile_codec.md rules R92, R93, R99, R100). A tile is fixed by its bits at
`off(i, r)`, `bitpos(c)` and a grid by the bits of its pixels; everything follows from where
`decodeTile` and `encodeTile` take one such bit from. -/

namespace Sys2Proof.Machine

theorem nibble_ext {g h : Nibble} (hbit : ∀ i : Fin 4, g.getLsbD i = h.getLsbD i) : g = h :=
  BitVec.eq_of_getLsbD_eq fun n hn => hbit ⟨n, hn⟩

/-- Every bit of a byte holds a column, so the eight columns fix the byte. -/
theorem TileGeometry.byte_ext (geo : TileGeometry) {v w : Byte}
    (hbit : ∀ c, v.getLsbD (geo.bitpos c) = w.getLsbD (geo.bitpos c)) : v = w := by
  refine BitVec.eq_of_getLsbD_eq fun n hn => ?_
  have hcolumn := hbit (geo.column ⟨n, hn⟩)
  rwa [geo.bitpos_column] at hcolumn

/-- Every byte of a tile is a row of a bitplane, so the rows of the bitplanes fix the tile. -/
theorem TileGeometry.tile_ext (geo : TileGeometry) {t u : Tile}
    (hrow : ∀ i r, t (geo.off i r) = u (geo.off i r)) : t = u := by
  funext j
  rw [← geo.off_plane_row j]
  exact hrow _ _

/-- Bit `i` of pixel (r, c) is one bit of the tile (40_tile_codec.md rule R90). -/
theorem decodeTile_pixelIndex_getLsbD (geo : TileGeometry) (t : Tile) (r c : Fin 8) (i : Fin 4) :
    (decodeTile geo t (pixelIndex r c)).getLsbD i = (t (geo.off i r)).getLsbD (geo.bitpos c) := by
  rw [decodeTile_getLsbD, pixelRow_pixelIndex, pixelColumn_pixelIndex]

theorem encodeTile_decodeTile (geo : TileGeometry) (t : Tile) :
    encodeTile geo (decodeTile geo t) = t :=
  geo.tile_ext fun i r => geo.byte_ext fun c =>
    (encodeTile_off_getLsbD geo _ i r c).trans (decodeTile_pixelIndex_getLsbD geo t r c i)

theorem decodeTile_encodeTile (geo : TileGeometry) (g : Grid) :
    decodeTile geo (encodeTile geo g) = g := by
  funext k
  rw [← pixelIndex_row_column k]
  exact nibble_ext fun i =>
    (decodeTile_pixelIndex_getLsbD geo _ _ _ i).trans (encodeTile_off_getLsbD geo g i _ _)

/-- Settles O9: the two laws, bit by bit. -/
theorem tileCodecInverse : Obligations.TileCodecInverse :=
  fun geo => ⟨encodeTile_decodeTile geo, decodeTile_encodeTile geo⟩

/-- Settles O10: a pixel is fixed by its bits, a byte by its columns, and each of these bits is one
bit of the argument. -/
theorem lanesAreIndependent : Obligations.LanesAreIndependent := by
  refine fun geo r => ⟨fun c t u hagree => ?pixel, fun i g h hagree => ?byte⟩
  case pixel =>
    refine nibble_ext fun i => ?_
    rw [decodeTile_pixelIndex_getLsbD, decodeTile_pixelIndex_getLsbD]
    exact hagree i
  case byte =>
    refine geo.byte_ext fun c => ?_
    rw [encodeTile_off_getLsbD, encodeTile_off_getLsbD]
    exact hagree c

end Sys2Proof.Machine
end

section
/-! PROOF. The commands TDEC and TENC (40_tile_codec.md rules R94 to R98): what they leave in PX, TB
and CLAMPED, entry by entry and bit by bit, and the rejecting TENC. -/

namespace Sys2Proof.Machine

/-- `bitpos(c) = 7 - c` in both layouts (00_scope.md rule R5). -/
@[simp] theorem tileGeometry_bitpos_val (L : TileLayout) (c : Fin 8) :
    ((tileGeometry L).bitpos c).val = 7 - c.val := by
  cases L <;> rfl

theorem zextPixel_toNat (g : Nibble) : (g.setWidth 8 : Byte).toNat = g.toNat :=
  BitVec.toNat_setWidth_of_le (by decide)

/-- A pixel that TDEC writes to PX is in range (40_tile_codec.md rule R94). -/
theorem zextPixel_toNat_le (g : Nibble) : (g.setWidth 8 : Byte).toNat ≤ 15 := by
  rw [zextPixel_toNat]
  exact Nat.le_of_lt_succ g.isLt

theorem zextPixel_getLsbD (g : Nibble) (i : Fin 4) :
    (g.setWidth 8 : Byte).getLsbD i = g.getLsbD i := by
  rw [BitVec.getLsbD, zextPixel_toNat, BitVec.testBit_toNat]

@[simp] theorem clampPixel_zextPixel (g : Nibble) : clampPixel (g.setWidth 8) = g :=
  BitVec.eq_of_toNat_eq <| by
    rw [clampPixel_toNat, Nat.min_eq_left (zextPixel_toNat_le g), zextPixel_toNat]

/-- CLAMPED after a TENC that encodes (40_tile_codec.md rule R97). -/
theorem clampedAfter_eq_true (px : PixelBuffer) (clamped : Bool) :
    clampedAfter (firstOor px) clamped = true ↔ clamped = true ∨ ∃ k, 15 < (px k).toNat := by
  have hscan : (firstOor px).isSome = true ↔ ∃ k, 15 < (px k).toNat := by
    simp only [Option.isSome_iff_ne_none, ne_eq, firstOor_eq_none, not_forall, not_le]
  rw [clampedAfter, Bool.or_eq_true, hscan]

/-- All that TDEC does: PX reads as the decoded tile (40_tile_codec.md rule R94). -/
theorem execTdec_result (s : State) :
    ∃ t, exec .tdec s = .next t ∧ t = { s with cmd := encode .tdec, px := t.px } ∧
      t.pxByte = fun k => (decodeTile machineGeometry s.tbByte k).setWidth 8 :=
  ⟨_, execTdec_eq s, rfl, pxByte_of_table rfl⟩

/-- All that an encoding TENC does: TB reads as the encoding of the clamped entries, and CLAMPED
follows the scan (40_tile_codec.md rules R97, R98). -/
theorem execTenc_result {s : State} (hencodes : s.clamp = true ∨ ∀ k, (s.pxByte k).toNat ≤ 15) :
    ∃ t, exec .tenc s = .next t ∧
      t = { s with
        cmd := encode .tenc, tb := t.tb, clamped := clampedAfter (firstOor s.pxByte) s.clamped } ∧
      t.tbByte = encodeTile machineGeometry fun k => clampPixel (s.pxByte k) := by
  have hscan : firstOor s.pxByte = none ∨ s.clamp = true := by
    rw [firstOor_eq_none]
    exact hencodes.symm
  exact ⟨_, execTenc_encode hscan, rfl, tbByte_of_table rfl⟩

/-- Settles O11: each bit of a decoded pixel is one bit of TB. -/
theorem tdecDecodesTile : Obligations.TdecDecodesTile := by
  refine ⟨decode_encode .tdec, fun s => ?_⟩
  obtain ⟨t, ht, hframe, hpx⟩ := execTdec_result s
  refine ⟨t, ht, hframe, fun r c => ?_⟩
  rw [hpx]
  refine ⟨zextPixel_toNat_le _, fun i => ?_⟩
  rw [zextPixel_getLsbD, decodeTile_pixelIndex_getLsbD, machineGeometry, tileGeometry_bitpos_val]

/-- Settles O12: each bit of an encoded byte is one bit of a clamped entry. -/
theorem tencEncodesGrid : Obligations.TencEncodesGrid := by
  refine ⟨decode_encode .tenc, fun s hencodes => ?_⟩
  obtain ⟨t, ht, hframe, htb⟩ := execTenc_result hencodes
  have hclamped : t.clamped = clampedAfter (firstOor s.pxByte) s.clamped :=
    congrArg State.clamped hframe
  refine ⟨t, ht, hclamped ▸ hframe, hclamped ▸ clampedAfter_eq_true s.pxByte s.clamped,
    fun i r c => ?_⟩
  rw [htb, ← tileGeometry_bitpos_val Config.tileLayout c, machineGeometry, encodeTile_off_getLsbD,
    ← clampPixel_toNat, BitVec.testBit_toNat]

/-- Settles O13: `k` is the entry that the scan answers. -/
theorem tencRejectsLeastOutOfRange : Obligations.TencRejectsLeastOutOfRange :=
  fun s k hclamp hk hleast =>
    execTenc_reject ((firstOor_eq_some s.pxByte k).mpr ⟨hk, hleast⟩) hclamp

end Sys2Proof.Machine
end

section
/-! PROOF. TDEC then TENC, and TENC then TDEC, as the host issues them (40_tile_codec.md rules R92,
R93). -/

namespace Sys2Proof.Machine

/-- Settles O14: the decoded pixels are in range, so TENC clamps none of them and encodes the
decoded tile. -/
theorem tdecThenTencKeepsTile : Obligations.TdecThenTencKeepsTile := by
  refine ⟨fun L => encodeTile_decodeTile (tileGeometry L), fun s herr => ?_⟩
  obtain ⟨t, ht, htframe, hpx⟩ := execTdec_result s
  have hinRange : ∀ k, (t.pxByte k).toNat ≤ 15 := fun k => by
    rw [hpx]
    exact zextPixel_toNat_le _
  obtain ⟨u, hu, huframe, htb⟩ := execTenc_result (.inr hinRange)
  have hterr : t.err = false := (congrArg State.err htframe).trans herr
  have huerr : u.err = false := (congrArg State.err huframe).trans hterr
  have htile : u.tbByte = s.tbByte := by
    simp only [htb, hpx, clampPixel_zextPixel, encodeTile_decodeTile]
  have hclamped : u.clamped = s.clamped := calc
    u.clamped = clampedAfter (firstOor t.pxByte) t.clamped := congrArg State.clamped huframe
    _ = t.clamped := by
      rw [(firstOor_eq_none _).mpr hinRange, clampedAfter, Option.isSome_none, Bool.or_false]
    _ = s.clamped := by rw [htframe]
  exact ⟨t, u, (issue_command herr (decode_encode .tdec)).trans ht,
    (issue_command hterr (decode_encode .tenc)).trans hu, congrFun htile, huerr, hclamped⟩

/-- Settles O15: TDEC decodes the encoded grid of the clamped entries. -/
theorem tencThenTdecClampsPixels : Obligations.TencThenTdecClampsPixels := by
  refine ⟨fun L => decodeTile_encodeTile (tileGeometry L), fun s herr hencodes => ?_⟩
  obtain ⟨t, ht, htframe, htb⟩ := execTenc_result hencodes
  obtain ⟨u, hu, -, hpx⟩ := execTdec_result t
  have hterr : t.err = false := (congrArg State.err htframe).trans herr
  refine ⟨t, u, (issue_command herr (decode_encode .tenc)).trans ht,
    (issue_command hterr (decode_encode .tdec)).trans hu, fun k => ?_⟩
  rw [hpx, htb, decodeTile_encodeTile, zextPixel_toNat, clampPixel_toNat]

end Sys2Proof.Machine
end

section
/-! PROOF. The palette commands one at a time (41_palette_decoder.md rules R110 to R123): each from the
equation of its meaning, with the colours, channels and banks as plain numbers. -/

namespace Sys2Proof.Machine

/-! The command bytes with an operand, as the sums of 30_encoding.md rule R74. -/

/-- The fields of a command byte do not overlap, so the operand is added to the opcode's byte. -/
theorem commandByte_eq_add (op arg : Nibble) :
    commandByte op arg = BitVec.ofNat 8 (16 * op.toNat) + arg.setWidth 8 := by
  apply BitVec.eq_of_toNat_eq
  rw [commandByte, BitVec.toNat_append, ← Nat.shiftLeft_add_eq_or_of_lt arg.isLt, Nat.shiftLeft_eq,
    BitVec.toNat_add, BitVec.toNat_ofNat, BitVec.toNat_setWidth]
  omega

theorem encode_pdec_eq_add (b : Nibble) : encode (.pdec b) = 0x30 + b.setWidth 8 :=
  commandByte_eq_add 0x3 b

theorem encode_sbnk_eq_add (p : Nibble) : encode (.sbnk p) = 0x40 + p.setWidth 8 :=
  commandByte_eq_add 0x4 p

theorem encode_clut_eq_add (n : Nibble) : encode (.clut n) = 0x60 + n.setWidth 8 :=
  commandByte_eq_add 0x6 n

/-! The decoded bank and the fetched colour. -/

/-- Settles O18: PAL takes the decoded bank, entry by entry a number from CG. -/
theorem pdecDecodesBank : Obligations.PdecDecodesBank := by
  intro b s
  rw [← encode_pdec_eq_add]
  exact ⟨decode_encode (.pdec b), _, execPdec_eq b s, rfl, decodeBank_getElem_toNat s b⟩

/-- Settles O19: the bank that is decoded is the one in BANK. -/
theorem pdcbDecodesNamedBank : Obligations.PdcbDecodesNamedBank :=
  ⟨decode_encode .pdcb, fun s => ⟨_, execPdcb_eq s, rfl, decodeBank_getElem_toNat s s.bank⟩⟩

/-- A colour of a bank as a number from CG, by its address (41_palette_decoder.md rule R110). -/
theorem color15_toNat_eq_cgBytes (s : State) (b n : Nibble) :
    (s.color15 b n).toNat =
      ((s.cgByte (BitVec.ofNat 9 (32 * b.toNat + 2 * n.toNat))).toNat
        + 256 * (s.cgByte (BitVec.ofNat 9 (32 * b.toNat + 2 * n.toNat + 1))).toNat) % 2 ^ 15 := by
  rw [color15_toNat, caddr_add_one_eq_ofNat, caddr_eq_ofNat]

/-- Settles O20: COLOR takes colour `n` of the bank in BANK, from CG. -/
theorem clutFetchesColor : Obligations.ClutFetchesColor := by
  intro n s
  rw [← encode_clut_eq_add]
  exact ⟨decode_encode (.clut n), _, execClut_eq n s, rfl, color15_toNat_eq_cgBytes s s.bank n⟩

/-! The conversion between a 15-bit colour and 8 bits per channel. -/

theorem scaleChannel_red_toNat (col : Color15) :
    (scaleChannel (red col)).toNat = col.toNat % 32 * 8 := by
  rw [scaleChannel_toNat, red_toNat]

theorem scaleChannel_green_toNat (col : Color15) :
    (scaleChannel (green col)).toNat = col.toNat / 32 % 32 * 8 := by
  rw [scaleChannel_toNat, green_toNat]

theorem scaleChannel_blue_toNat (col : Color15) :
    (scaleChannel (blue col)).toNat = col.toNat / 1024 * 8 := by
  rw [scaleChannel_toNat, blue_toNat]

/-- Settles O22: each channel of RGB is a channel of COLOR, scaled. -/
theorem trgbScalesChannels : Obligations.TrgbScalesChannels :=
  ⟨decode_encode .trgb, fun s => ⟨_, execTrgb_eq s, rfl, scaleChannel_red_toNat s.color,
    scaleChannel_green_toNat s.color, scaleChannel_blue_toNat s.color⟩⟩

/-- Settles O23: COLOR takes the truncated channels of RGB. -/
theorem frgbTruncatesChannels : Obligations.FrgbTruncatesChannels :=
  ⟨decode_encode .frgb, fun s => ⟨_, execFrgb_eq s, rfl, fromRgb8_toNat s.rgbR s.rgbG s.rgbB⟩⟩

/-- Truncation undoes the scaling by 8, and the channels make up the colour. -/
theorem fromRgb8_toRgb8 (col : Color15) :
    fromRgb8 (toRgb8 col).1 (toRgb8 col).2.1 (toRgb8 col).2.2 = col := by
  apply BitVec.eq_of_toNat_eq
  rw [toRgb8, fromRgb8_toNat, scaleChannel_red_toNat, scaleChannel_green_toNat,
    scaleChannel_blue_toNat]
  omega

theorem red_fromRgb8 (r g b : Byte) : red (fromRgb8 r g b) = truncateChannel r := by
  apply BitVec.eq_of_toNat_eq
  rw [red_toNat, fromRgb8_toNat, truncateChannel_toNat]
  omega

theorem green_fromRgb8 (r g b : Byte) : green (fromRgb8 r g b) = truncateChannel g := by
  apply BitVec.eq_of_toNat_eq
  rw [green_toNat, fromRgb8_toNat, truncateChannel_toNat]
  omega

theorem blue_fromRgb8 (r g b : Byte) : blue (fromRgb8 r g b) = truncateChannel b := by
  apply BitVec.eq_of_toNat_eq
  rw [blue_toNat, fromRgb8_toNat, truncateChannel_toNat]
  omega

/-- A channel that is truncated and scaled again is shifted out by 3 bits and back in. -/
theorem scaleChannel_truncateChannel (x : Byte) : scaleChannel (truncateChannel x) = x &&& 0xF8 := by
  have hshift : scaleChannel (truncateChannel x) = x >>> 3 <<< 3 := by
    apply BitVec.eq_of_toNat_eq
    rw [scaleChannel_toNat, truncateChannel_toNat, BitVec.toNat_shiftLeft, BitVec.toNat_ushiftRight,
      Nat.shiftLeft_eq, Nat.shiftRight_eq_div_pow]
    omega
  rw [hshift, BitVec.shiftLeft_ushiftRight]
  rfl

theorem toRgb8_fromRgb8 (r g b : Byte) :
    toRgb8 (fromRgb8 r g b) = (r &&& 0xF8, g &&& 0xF8, b &&& 0xF8) := by
  rw [toRgb8, red_fromRgb8, green_fromRgb8, blue_fromRgb8]
  simp only [scaleChannel_truncateChannel]

/-- Settles O24: each function after the other, channel by channel. -/
theorem colorConversionLaws : Obligations.ColorConversionLaws :=
  ⟨fromRgb8_toRgb8, toRgb8_fromRgb8⟩

/-! The sprite bank. -/

theorem spriteBank_eq_ofNat (p : Nibble) : p + 8 = BitVec.ofNat 4 (p.toNat + 8) := rfl

/-- Settles O21: the two outcomes of SBNK. -/
theorem sbnkMapsPaletteToSpriteBank : Obligations.SbnkMapsPaletteToSpriteBank := by
  intro p s
  rw [← encode_sbnk_eq_add, ← spriteBank_eq_ofNat]
  exact ⟨decode_encode (.sbnk p), fun hp => execSbnk_legal hp s, fun hp => execSbnk_illegal hp s⟩

theorem oamPalette_toNat (attr : Byte) : (oamPalette attr).toNat = attr.toNat / 2 % 8 := by
  rw [oamPalette, BitVec.toNat_setWidth_of_le (by decide), BitVec.extractLsb'_toNat,
    Nat.shiftRight_eq_div_pow]

/-- Settles O26: three bits are at most 7, so SBNK takes its legal outcome. -/
theorem oamPaletteAlwaysLegal : Obligations.OamPaletteAlwaysLegal := by
  intro attr s
  have hpalette := oamPalette_toNat attr
  have hlegal : (oamPalette attr).toNat ≤ 7 := by omega
  refine ⟨_, execSbnk_legal hlegal s, rfl, ?_⟩
  rw [← hpalette]
  exact spriteBank_toNat hlegal

end Sys2Proof.Machine
end

section
/-! PROOF. PAL is a snapshot (41_palette_decoder.md rule R116, 70_reset_and_hazards.md rule R200): which
commands, which issued bytes and which events change it. -/

namespace Sys2Proof.Machine

/-- The commands that write PAL (20_memory.md rule R55). -/
theorem exec_changes_pal {i : Instr} {s t : State} (h : exec i s = .next t) (hpal : t.pal ≠ s.pal) :
    (∃ b, i = .pdec b) ∨ i = .pdcb ∨ i = .srst := by
  obtain ⟨-, -, -, -, -, -, -, hkeeps, -⟩ := commandsWriteOnlyTheirState i s t h
  by_contra hother
  simp only [not_or, not_exists] at hother
  obtain ⟨hpdec, hpdcb, hsrst⟩ := hother
  exact hpal (hkeeps hpdec hpdcb hsrst)

theorem opField_encode_pdec (b : Nibble) : opField (encode (.pdec b)) = 0x3 :=
  BitVec.extractLsb'_append_eq_left

/-- The bytes whose issue writes PAL. -/
theorem issue_changes_pal {w : Byte} {s t : State} (h : issue w s = .next t) (hpal : t.pal ≠ s.pal) :
    w.toNat / 16 = 0x3 ∨ w = 0x50 ∨ w = 0xF0 := by
  obtain ⟨-, -, -, hi⟩ | ⟨-, -, hi⟩ | ⟨-, hw, -⟩ | ⟨-, -, hi⟩ | ⟨-, i, hdecode, hi⟩ := issue_cases w s
  · cases hi.symm.trans h
    exact absurd rfl hpal
  · cases (hi.trans (execClre_eq s)).symm.trans h
    exact absurd rfl hpal
  · exact .inr (.inr hw)
  · cases hi.symm.trans h
    exact absurd rfl hpal
  · obtain rfl := encode_of_decode hdecode
    obtain ⟨b, rfl⟩ | rfl | rfl := exec_changes_pal (hi.symm.trans h) hpal
    · rw [← opField_toNat, opField_encode_pdec]
      exact .inl rfl
    · exact .inr (.inl rfl)
    · exact .inr (.inr rfl)

/-- Settles O46: a read and a plain write keep PAL, so an issued byte that writes it or a hardware reset
is left. -/
theorem paletteChangesOnlyByDecodeOrReset : Obligations.PaletteChangesOnlyByDecodeOrReset := by
  intro s t hs hpal
  obtain ⟨-, e⟩ | ⟨a, rest, -, e⟩ | ⟨a, v, rest, -, -, e⟩ | ⟨w, rest, hscript, e⟩ | ⟨rest, hscript, -⟩ :=
    step_cases s
  · cases e.symm.trans hs
    exact absurd rfl hpal
  · cases e.symm.trans hs
    exact absurd rfl hpal
  · cases e.symm.trans hs
    obtain ⟨hkeeps, -⟩ := writeLocation_frame { s with script := rest } v (locate a)
    exact absurd hkeeps hpal
  · exact ⟨rest, .inr ⟨w, hscript, issue_changes_pal (e.symm.trans hs) hpal⟩⟩
  · exact ⟨rest, .inl hscript⟩

end Sys2Proof.Machine
end

section
/-! PROOF. The control commands NOP, CLRE and SRST (42_control.md rules R141 to R143): what each changes,
and that the error lock stops NOP and lets CLRE and SRST through (30_encoding.md rule R72). -/

namespace Sys2Proof.Machine

/-- A command that is executed under the error lock is executed in every state, since nothing holds it
back outside the lock. -/
theorem issue_eq_exec_of_passes_lock {w : Byte} {i : Instr} {s : State} (hdecode : decode w = .ok i)
    (hlocked : s.err = true → issue w s = exec i s) : issue w s = exec i s := by
  cases herr : s.err with
  | true => exact hlocked herr
  | false => exact issue_command herr hdecode

theorem issue_clre (s : State) : issue 0xE0 s = exec .clre s :=
  issue_eq_exec_of_passes_lock (decode_encode .clre) issue_clre_locked

theorem issue_srst (s : State) : issue 0xF0 s = exec .srst s :=
  issue_eq_exec_of_passes_lock (decode_encode .srst) issue_srst_locked

/-- The soft reset as an update of the state it is given: CG, TB and PX are not among its writes. -/
theorem softReset_eq_update (s : State) :
    softReset s =
      { s with
        cmd := 0x00, clamp := false, ie := false, err := false, clamped := false
        errCode := 0x00, errIdx := 0x00, errVal := 0x00, bank := 0, color := 0x0000
        rgbR := 0x00, rgbG := 0x00, rgbB := 0x00, pal := Vector.replicate 16 0x0000 } := rfl

/-- Settles O27: 0x00 is a command's byte, and neither of the two that pass the lock. -/
theorem nopWritesCmdOnly : Obligations.NopWritesCmdOnly := by
  have hdecode : decode 0x00 = .ok .nop := decode_encode .nop
  refine ⟨hdecode, fun s => ⟨execNop_eq s, ?unlocked, ?locked⟩⟩
  case unlocked => exact fun herr => issue_command herr hdecode
  case locked => exact fun herr => issue_locked herr (by decide) (by decide)

/-- Settles O28: the lock lets CLRE through, and its writes are those of `clearErrors`. -/
theorem clreClearsErrorState : Obligations.ClreClearsErrorState :=
  ⟨decode_encode .clre, fun s => ⟨issue_clre s, execClre_eq s⟩⟩

/-- Settles O29: the lock lets SRST through, and its writes are those of `softReset`. -/
theorem srstResetsRegistersOnly : Obligations.SrstResetsRegistersOnly :=
  ⟨decode_encode .srst, fun s =>
    ⟨issue_srst s, (execSrst_eq s).trans (congrArg Host.Outcome.next (softReset_eq_update s))⟩⟩

end Sys2Proof.Machine
end

section
/-! PROOF. The compressor contract (43_compressor_contract.md rules R151, R153, R156): what bounded
decompression answers, for every provider, and a tile's way through TENC, the compressor and TDEC. -/

namespace Sys2Proof.Machine

/-- Bounded decompression raises its error exactly where the provider gives no bytes within the bound. -/
theorem decompressWithin_eq_compressionRoundTrip (decompress : Bytes → Option Bytes) (bound : Nat)
    (x : Bytes) :
    decompressWithin decompress bound x = .error .compressionRoundTrip ↔
      ∀ y, decompress x = some y → bound < y.length := by
  rw [decompressWithin_eq_error, and_iff_right rfl]

/-- Settles O48: the provider gives no bytes, bytes within the bound, or bytes beyond it, and of an
output of `compress` it gives the original. -/
theorem decompressionIsBounded : Obligations.DecompressionIsBounded := by
  refine ⟨fun compress decompress hlaw bound x => ⟨fun hwithin => ?_, fun hbeyond => ?_⟩,
    fun decompress bound x => ⟨fun hnone => ?_, ?_⟩⟩
  · exact (decompressWithin_eq_ok ..).mpr ⟨hlaw x, hwithin⟩
  · rw [decompressWithin_eq_compressionRoundTrip, hlaw x]
    rintro _ ⟨⟩
    exact hbeyond
  · rw [decompressWithin_eq_compressionRoundTrip, hnone]
    exact nofun
  · by_cases hfits : ∃ y, decompress x = some y ∧ y.length ≤ bound
    · obtain ⟨y, hy, hlen⟩ := hfits
      exact .inl ⟨y, (decompressWithin_eq_ok ..).mpr ⟨hy, hlen⟩, hy, hlen⟩
    · refine .inr ((decompressWithin_eq_compressionRoundTrip ..).mpr fun y hy => ?_)
      exact Nat.lt_of_not_le fun hlen => hfits ⟨y, hy, hlen⟩

/-- The bytes handed to the compressor determine all of TB. -/
theorem tbByte_eq_of_tileBytes_eq {s t : State} (h : s.tileBytes = t.tileBytes) :
    s.tbByte = t.tbByte :=
  List.ofFn_injective h

/-- TENC stores an in-range entry unclamped (40_tile_codec.md rule R97). -/
theorem zextPixel_clampPixel {v : Byte} (h : v.toNat ≤ 15) : (clampPixel v).setWidth 8 = v :=
  BitVec.eq_of_toNat_eq <| by rw [zextPixel_toNat, clampPixel_toNat, Nat.min_eq_left h]

/-- Settles O16: the law makes the TB that TDEC reads the one that TENC left, which decodes to the
clamped entries, and none of them is changed by the clamp. -/
theorem compressedTileComesBack : Obligations.CompressedTileComesBack := by
  intro compress decompress hlaw s hinRange
  obtain ⟨t, ht, -, htb⟩ := execTenc_result (.inr hinRange)
  refine ⟨t, ht, fun u hu => ?_⟩
  have hbytes : t.tileBytes = u.tileBytes := Option.some.inj ((hlaw t.tileBytes).symm.trans hu)
  have hsame : u.tbByte = t.tbByte := (tbByte_eq_of_tileBytes_eq hbytes).symm
  obtain ⟨v, hv, -, hpx⟩ := execTdec_result u
  refine ⟨v, hv, fun k => ?_⟩
  rw [hpx, hsame, htb, decodeTile_encodeTile]
  exact zextPixel_clampPixel (hinRange k)

end Sys2Proof.Machine
end

section
/-! PROOF. Error entry (60_exceptions.md rules R160 to R165): which commands raise, and that a step
that enters an error is `raiseError` on the state with its event taken off the script. -/

namespace Sys2Proof.Machine

/-- Settles O43: TENC raises where it rejects and SBNK where its operand has no sprite bank; CLRE and
SRST answer ERR = 0, and every other outcome keeps ERR. -/
theorem onlyTencAndSbnkRaise : Obligations.OnlyTencAndSbnkRaise := by
  intro i s t herr h hraised
  cases i with
  | tenc =>
    obtain ⟨k, hk, hclamp, e⟩ | ⟨-, e⟩ := execTenc_cases s
    · obtain ⟨hrange, -⟩ := (firstOor_eq_some _ _).mp hk
      cases e.symm.trans h
      exact .inl ⟨rfl, rfl, hclamp, k, hrange⟩
    · cases e.symm.trans h
      cases herr.symm.trans hraised
  | sbnk p =>
    obtain hp | hp := Nat.lt_or_ge 7 p.toNat
    · cases (execSbnk_illegal hp s).symm.trans h
      exact .inr ⟨p, rfl, decide_eq_false (Nat.not_le.mpr hp), rfl⟩
    · cases (execSbnk_legal hp s).symm.trans h
      cases herr.symm.trans hraised
  | clre | srst =>
    cases h
    cases hraised
  | _ =>
    cases h
    cases herr.symm.trans hraised

/-- A command that enters an error does nothing but the error entry (60_exceptions.md rule R164). -/
theorem exec_enters_error {i : Instr} {s t : State} (herr : s.err = false) (h : exec i s = .next t)
    (hraised : t.err = true) : ∃ e idx val, t = raiseError (encode i) e idx val s := by
  cases execEffect_of_exec h with
  | raised e idx val _ => exact ⟨e, idx, val, rfl⟩
  | cleared | restarted => cases hraised
  | completed frame _ _ =>
    have hkept : t.err = s.err := by rw [frame]
    cases (hkept.trans herr).symm.trans hraised

/-- An issued byte that enters an error, as a command or as a reserved byte, does nothing but the error
entry. -/
theorem issue_enters_error {w : Byte} {s t : State} (herr : s.err = false) (h : issue w s = .next t)
    (hraised : t.err = true) : ∃ e idx val, t = raiseError w e idx val s := by
  cases hdecode : decode w with
  | error r =>
    cases (issue_reserved herr hdecode).symm.trans h
    exact ⟨.illCmd, 0, w, rfl⟩
  | ok i =>
    obtain rfl := encode_of_decode hdecode
    exact exec_enters_error herr ((issue_command herr hdecode).symm.trans h) hraised

/-- Only a write to CMD enters an error, and it does nothing but the error entry. -/
theorem step_enters_error {s t : State} (herr : s.err = false) (h : step s = .next t)
    (hraised : t.err = true) :
    ∃ w rest e idx val,
      s.script = .write 0x280 w :: rest ∧ t = raiseError w e idx val { s with script := rest } := by
  obtain ⟨-, e⟩ | ⟨a, rest, -, e⟩ | ⟨a, v, rest, -, -, e⟩ | ⟨w, rest, hscript, e⟩ | ⟨rest, -, e⟩ :=
    step_cases s
  · cases e.symm.trans h
    cases herr.symm.trans hraised
  · cases e.symm.trans h
    cases herr.symm.trans hraised
  · cases e.symm.trans h
    obtain ⟨-, -, hkept, -⟩ := writeLocation_frame { s with script := rest } v (locate a)
    cases (hkept.trans herr).symm.trans hraised
  · obtain ⟨e', idx, val, ht⟩ :=
      issue_enters_error (s := { s with script := rest }) herr (e.symm.trans h) hraised
    exact ⟨w, rest, e', idx, val, hscript, ht⟩
  · cases e.symm.trans h
    cases hraised

/-- Settles O42: the step is the error entry, whose writes are the five listed registers. -/
theorem errorsArePrecise : Obligations.ErrorsArePrecise := by
  intro s t herr h hraised
  obtain ⟨w, rest, e, idx, val, hscript, rfl⟩ := step_enters_error herr h hraised
  rw [hscript]
  rfl

end Sys2Proof.Machine
end

section
/-! PROOF. The error lock in a step (60_exceptions.md rules R166, R170) and the irq output (R168). -/

namespace Sys2Proof.Machine

/-- Settles O6: the step is the issue of the byte, which the lock ignores. -/
theorem lockedCommandIgnored : Obligations.LockedCommandIgnored :=
  fun _ _ _ hscript herr hclre hsrst => (step_issue hscript).trans (issue_locked herr hclre hsrst)

/-- Only the bytes of CLRE and SRST end the error lock. -/
theorem issue_ends_lock {w : Byte} {s t : State} (herr : s.err = true) (h : issue w s = .next t)
    (hended : t.err = false) : w = 0xE0 ∨ w = 0xF0 := by
  by_contra hother
  obtain ⟨hclre, hsrst⟩ := not_or.mp hother
  cases (issue_locked herr hclre hsrst).symm.trans h
  cases herr.symm.trans hended

/-- Settles O44: a read and a plain write keep ERR, so an issued byte that ends the lock or a hardware
reset is left. -/
theorem errorLockEndsOnlyByAcknowledge : Obligations.ErrorLockEndsOnlyByAcknowledge := by
  intro s t herr h hended
  obtain ⟨-, e⟩ | ⟨a, rest, -, e⟩ | ⟨a, v, rest, -, -, e⟩ | ⟨w, rest, hscript, e⟩ | ⟨rest, hscript, -⟩ :=
    step_cases s
  · cases e.symm.trans h
    cases herr.symm.trans hended
  · cases e.symm.trans h
    cases herr.symm.trans hended
  · cases e.symm.trans h
    obtain ⟨-, -, hkept, -⟩ := writeLocation_frame { s with script := rest } v (locate a)
    cases (hkept.trans herr).symm.trans hended
  · obtain rfl | rfl :=
      issue_ends_lock (s := { s with script := rest }) herr (e.symm.trans h) hended
    · exact ⟨rest, .inl hscript⟩
    · exact ⟨rest, .inr (.inl hscript)⟩
  · exact ⟨rest, .inr (.inr hscript)⟩

/-- Bit 0 of STATUS is ERR (10_state.md rule R21). -/
theorem statusByte_getLsbD_zero (s : State) : s.statusByte.getLsbD 0 = s.err := by
  unfold State.statusByte
  cases s.clamped <;> cases s.err <;> rfl

/-- Bit 1 of CTRL is IE (10_state.md rule R20). -/
theorem ctrlByte_getLsbD_one (s : State) : s.ctrlByte.getLsbD 1 = s.ie := by
  unfold State.ctrlByte
  cases s.ie <;> cases s.clamp <;> rfl

/-- Settles O35: 0x282 reads STATUS and 0x281 reads CTRL. -/
theorem irqIsErrAndEnable : Obligations.IrqIsErrAndEnable := by
  intro s
  have hstatus : hostRead s 0x282 = s.statusByte := rfl
  have hctrl : hostRead s 0x281 = s.ctrlByte := rfl
  rw [hstatus, hctrl, statusByte_getLsbD_zero, ctrlByte_getLsbD_one, State.irq]

end Sys2Proof.Machine
end

section
/-! PROOF. A run without an acknowledge: every step takes one event off the script, and ERR = 0 at the
end goes back to every state on the way (60_exceptions.md rule R166, 70_reset_and_hazards.md rule
R204). -/

namespace Sys2Proof.Machine

/-! Every step answers, and takes its event off the script. -/

theorem exec_keeps_script {i : Instr} {s t : State} (h : exec i s = .next t) :
    t.script = s.script := by
  obtain ⟨-, -, hscript, -⟩ := commandsWriteOnlyTheirState i s t h
  exact hscript

theorem issue_keeps_script {w : Byte} {s t : State} (h : issue w s = .next t) :
    t.script = s.script := by
  obtain ⟨-, -, -, hi⟩ | ⟨-, -, hi⟩ | ⟨-, -, hi⟩ | ⟨-, -, hi⟩ | ⟨-, i, -, hi⟩ := issue_cases w s
  · cases hi.symm.trans h; rfl
  · exact exec_keeps_script (hi.symm.trans h)
  · exact exec_keeps_script (hi.symm.trans h)
  · cases hi.symm.trans h; rfl
  · exact exec_keeps_script (hi.symm.trans h)

theorem step_answers (s : State) : ∃ t, step s = .next t ∧ t.script = s.script.tail := by
  obtain ⟨hscript, e⟩ | ⟨a, rest, hscript, e⟩ | ⟨a, v, rest, hscript, -, e⟩ | ⟨w, rest, hscript, e⟩ |
    ⟨rest, hscript, e⟩ := step_cases s
  · exact ⟨s, e, by rw [hscript]; rfl⟩
  · exact ⟨_, e, by rw [hscript]; rfl⟩
  · obtain ⟨-, -, -, -, -, -, -, -, hkept, -⟩ :=
      writeLocation_frame { s with script := rest } v (locate a)
    exact ⟨_, e, by rw [hkept, hscript]; rfl⟩
  · obtain ⟨t, ht⟩ := issue_answers w { s with script := rest }
    exact ⟨t, e.trans ht, by rw [issue_keeps_script ht, hscript]; rfl⟩
  · exact ⟨_, e, by rw [hscript]; rfl⟩

theorem core_run_answers (n : Nat) (s : State) :
    ∃ t, core.run n s = .next t ∧ t.script = s.script.drop n := by
  induction n generalizing s with
  | zero => exact ⟨s, core_run_zero s, rfl⟩
  | succ n ih =>
    obtain ⟨u, hu, huscript⟩ := step_answers s
    obtain ⟨t, ht, htscript⟩ := ih u
    exact ⟨t, (core_run_succ n hu).trans ht, by rw [htscript, huscript, List.drop_tail]⟩

/-! Without an acknowledge, ERR = 0 goes back along a run. -/

/-- No event of the list ends the error lock (60_exceptions.md rule R170). -/
def NoAcknowledge (events : List HostEvent) : Prop :=
  .hardwareReset ∉ events ∧ .write 0x280 0xE0 ∉ events ∧ .write 0x280 0xF0 ∉ events

theorem NoAcknowledge.of_subset {events fewer : List HostEvent} (h : NoAcknowledge events)
    (hsubset : fewer ⊆ events) : NoAcknowledge fewer := by
  obtain ⟨hreset, hclre, hsrst⟩ := h
  exact ⟨fun hm => hreset (hsubset hm), fun hm => hclre (hsubset hm), fun hm => hsrst (hsubset hm)⟩

/-- Where no acknowledge is to come, a step that answers ERR = 0 began at ERR = 0. -/
theorem err_eq_false_of_step {s t : State} (hnone : NoAcknowledge s.script) (h : step s = .next t)
    (hfree : t.err = false) : s.err = false := by
  by_contra hlocked
  obtain ⟨hreset, hclre, hsrst⟩ := hnone
  obtain ⟨rest, hscript | hscript | hscript⟩ :=
    errorLockEndsOnlyByAcknowledge s t (eq_true_of_ne_false hlocked) h hfree
  · exact hclre (hscript ▸ List.mem_cons_self)
  · exact hsrst (hscript ▸ List.mem_cons_self)
  · exact hreset (hscript ▸ List.mem_cons_self)

/-- Where no acknowledge is to come, a run that ends at ERR = 0 began at ERR = 0. -/
theorem err_eq_false_of_core_run {n : Nat} {s t : State} (hnone : NoAcknowledge s.script)
    (h : core.run n s = .next t) (hfree : t.err = false) : s.err = false := by
  induction n generalizing s with
  | zero =>
    cases h
    exact hfree
  | succ n ih =>
    obtain ⟨u, hu, hscript⟩ := step_answers s
    have hnone' : NoAcknowledge u.script := hscript ▸ hnone.of_subset (List.tail_subset _)
    exact err_eq_false_of_step hnone hu (ih hnone' ((core_run_succ n hu).symm.trans h))

/-- Settles O50: the rest of the run after any transaction is a run without an acknowledge, so it ends
at ERR = 0 only from a state with ERR = 0. -/
theorem noSuccessAfterUnacknowledgedError : Obligations.NoSuccessAfterUnacknowledgedError := by
  intro s transactions cares hreset hclre hsrst hfinal
  refine ⟨hreset, hfinal, fun n hn _ => ?_⟩
  obtain ⟨t, ht, hfree⟩ := hfinal
  obtain ⟨u, hu, hscript⟩ := core_run_answers n { hardwareReset s with script := transactions }
  have hnone : NoAcknowledge u.script :=
    hscript ▸ NoAcknowledge.of_subset ⟨hreset, hclre, hsrst⟩ (List.drop_subset n transactions)
  have hrest : core.run (transactions.length - n) u = .next t := by
    rw [← run_add core n _ hu, Nat.add_sub_cancel' (Nat.le_of_lt hn)]
    exact ht
  exact ⟨u, hu, err_eq_false_of_core_run hnone hrest hfree⟩

end Sys2Proof.Machine
end

section
/-! PROOF. No state stops the machine: a step always answers, and a run from a hardware reset takes its
transactions off the script one at a time (70_reset_and_hazards.md rule R204, 20_memory.md rule
R56). -/

namespace Sys2Proof.Machine

/-- Settles O7: of every form a step can take, `step_answers` gives the next state. -/
theorem stepNeverStops : Obligations.StepNeverStops := fun s => by
  obtain ⟨t, ht, -⟩ := step_answers s
  exact ⟨t, ht⟩

/-- Settles O49: by the induction on the number of steps in `core_run_answers`, at the state after the
hardware reset, whose script is the list of transactions. -/
theorem runPerformsItsTransactions : Obligations.RunPerformsItsTransactions :=
  fun s transactions n _ => core_run_answers n { hardwareReset s with script := transactions }

end Sys2Proof.Machine
end
